-- ==== Sys2Proof/Word.lean ====
section
/-! DEFINITION. The word types of B58CONV (spec/00_scope.md R5, section 5): bytes, 32-bit register words, 16-bit
lengths, base-58 digits, and the alphabet-select operand. -/

namespace Sys2Proof

/-- A byte; a symbol is one byte (R5). -/
abbrev Byte := BitVec 8

/-- A register as the host sees it: 32 bits. -/
abbrev Word := BitVec 32

/-- The width of the length fields `BLEN[15:0]`, `TLEN[15:0]` and of the two capacities in `CAP`. -/
abbrev Half := BitVec 16

/-- A digit value `0..57` (R5: an alphabet has exactly 58 symbols). -/
abbrev Digit := Fin 58

/-- Which alphabet a command names: `ASEL = 0` is the ROM alphabet, `ASEL = 1` the custom one (R90). -/
inductive AlphaSel where
  | rom
  | cust
  deriving DecidableEq, Repr

end Sys2Proof
end

