-- ==== Sys2Proof/HostAccess.lean ====
section
/-! DEFINITION. What the outside world can do to B58CONV (spec/00_scope.md R9, spec/20_memory.md R62): the four host
accesses, the events that the three agents cause, and what a host read returns. -/

namespace Sys2Proof

/-- The size of the host window: offsets of 0x30000 and above do not belong to the block (R61). -/
def WINDOW : Nat := 0x30000

/-- One access of the host port (R62). `off` is a byte offset from `BASE`. -/
inductive HostAccess where
  | read32 (off : Nat)
  | write32 (off : Nat) (v : Word)
  | read8 (off : Nat)
  | write8 (off : Nat) (v : Byte)
  deriving DecidableEq, Repr

/-- The offset an access names. -/
def HostAccess.off : HostAccess → Nat
  | .read32 off => off
  | .write32 off _ => off
  | .read8 off => off
  | .write8 off _ => off

/-- Whether an access is one of the two writes. -/
def HostAccess.isWrite : HostAccess → Bool
  | .read32 _ => false
  | .write32 _ _ => true
  | .read8 _ => false
  | .write8 _ _ => true

/-- One step of one agent (R9): a host access, the engine's `Complete`, or hardware reset. -/
inductive Event where
  | access (a : HostAccess)
  | complete
  | hardReset
  deriving DecidableEq, Repr

/-- The value one host read returned. -/
inductive Reply where
  | word (v : Word)
  | byte (v : Byte)
  deriving DecidableEq, Repr

end Sys2Proof
end

