-- ==== Sys2Proof/Syntax.lean ====
section
/-! DEFINITION. The seven commands of B58CONV command set 1, one constructor per row of spec/opcode_table.json
(spec/30_encoding.md R92). Operands that are not in the command word are implicit (R94). -/

namespace Sys2Proof

inductive Instr where
  /-- complete without doing anything (R184) -/
  | nop
  /-- base-256 to base-58 under the selected alphabet (R140) -/
  | encode (asel : AlphaSel)
  /-- base-58 to base-256 under the selected alphabet (R160) -/
  | decode (asel : AlphaSel)
  /-- validate and load the staged custom alphabet (R120) -/
  | ldalpha
  /-- look a byte up in the selected inverse table (R125) -/
  | digitof (asel : AlphaSel) (imm8 : Byte)
  /-- read an entry of the selected symbol table (R126) -/
  | symbolof (asel : AlphaSel) (imm8 : Byte)
  /-- soft reset (R186) -/
  | srst
  deriving DecidableEq, Repr

end Sys2Proof
end

