-- ==== Sys2Proof/WellFormed.lean ====
section
/-! DEFINITION. The checks on what is written to the machine: the legality of a command word's fields
(spec/30_encoding.md R90, R91, R96), of a command as syntax, and of a host access (spec/20_memory.md R62). -/

namespace Sys2Proof

/-- The five fields of a command word (R90). -/
structure CommandFields where
  op : BitVec 8
  asel : BitVec 1
  rsv0 : BitVec 7
  imm8 : BitVec 8
  rsv1 : BitVec 8
  deriving DecidableEq, Repr

/-- The three formats (R91): `Z` uses `OP` alone, `S` also `ASEL`, `I` also `IMM8`. -/
inductive Format where
  | Z
  | S
  | I
  deriving DecidableEq, Repr

/-- The format of each opcode of R92; opcodes 0x07..0xFF are reserved. -/
def formatOf (op : BitVec 8) : Option Format :=
  if op = 0x00#8 then some .Z
  else if op = 0x01#8 then some .S
  else if op = 0x02#8 then some .S
  else if op = 0x03#8 then some .Z
  else if op = 0x04#8 then some .I
  else if op = 0x05#8 then some .I
  else if op = 0x06#8 then some .Z
  else none

/-- "an unused field must be 0" (R91), and the opcode must not be reserved (R96). -/
def CommandFields.wf (f : CommandFields) : Bool :=
  f.rsv0 == 0#7 && f.rsv1 == 0#8 &&
  match formatOf f.op with
  | some .Z => f.asel == 0#1 && f.imm8 == 0#8
  | some .S => f.imm8 == 0#8
  | some .I => true
  | none => false

/-- Every command as syntax is well formed: `ASEL` has two values and `IMM8` has 256, every one of them encodable
(R93: "values 58..255 are encodable"), and the operand types hold no other value. -/
def Instr.wf : Instr → Bool
  | .nop => true
  | .encode _ => true
  | .decode _ => true
  | .ldalpha => true
  | .digitof _ _ => true
  | .symbolof _ _ => true
  | .srst => true

/-- `0 <= off < 0x30000` (R62). -/
def HostAccess.wf (a : HostAccess) : Bool := decide (a.off < WINDOW)

end Sys2Proof
end

