-- ==== Sys2Proof/Decode.lean ====
section
/-! DEFINITION. The total command decoder `dec` (spec/30_encoding.md R95), which rejects by name, and the encoder,
written from the opcode map (R92) and the field layout (R90). -/

namespace Sys2Proof

/-- Why a word is an illegal command (R96). All three complete with `IllegalCommand`. -/
inductive IllegalReason where
  /-- `RSV0` or `RSV1` is not 0 -/
  | reservedBits
  /-- `ASEL` or `IMM8` is not 0 where the opcode's format has none -/
  | unusedField
  /-- `OP` is in 0x07..0xFF -/
  | reservedOpcode
  deriving DecidableEq, Repr

/-- The answer of the decoder. -/
inductive Decoded where
  | instr (i : Instr)
  | illegal (r : IllegalReason)
  deriving DecidableEq, Repr

/-- The instruction a decoding holds, if it holds one. -/
def Decoded.instr? : Decoded → Option Instr
  | .instr i => some i
  | .illegal _ => none

/-- The field layout of a command word (R90). -/
def fieldsOf (w : Word) : CommandFields where
  op := w.extractLsb' 0 8
  asel := w.extractLsb' 8 1
  rsv0 := w.extractLsb' 9 7
  imm8 := w.extractLsb' 16 8
  rsv1 := w.extractLsb' 24 8

/-- A word put together from its fields (R90). -/
def packFields (f : CommandFields) : Word :=
  BitVec.ofNat 32 (f.op.toNat + f.asel.toNat * 0x100 + f.rsv0.toNat * 0x200 + f.imm8.toNat * 0x10000 +
    f.rsv1.toNat * 0x1000000)

/-- `ASEL`: 0 = ROM alphabet, 1 = custom alphabet (R90). -/
def aselOfBit (b : BitVec 1) : AlphaSel := if b = 0#1 then .rom else .cust

/-- The bit that selects an alphabet (R90). -/
def bitOfAsel : AlphaSel → BitVec 1
  | .rom => 0#1
  | .cust => 1#1

/-- The decoder of R95 on the fields of a word, test by test in the order R95 gives them. -/
def decFields (f : CommandFields) : Decoded :=
  if f.rsv0 ≠ 0#7 ∨ f.rsv1 ≠ 0#8 then .illegal .reservedBits
  else if f.op = 0x00#8 ∧ f.asel = 0#1 ∧ f.imm8 = 0#8 then .instr .nop
  else if f.op = 0x01#8 ∧ f.imm8 = 0#8 then .instr (.encode (aselOfBit f.asel))
  else if f.op = 0x02#8 ∧ f.imm8 = 0#8 then .instr (.decode (aselOfBit f.asel))
  else if f.op = 0x03#8 ∧ f.asel = 0#1 ∧ f.imm8 = 0#8 then .instr .ldalpha
  else if f.op = 0x04#8 then .instr (.digitof (aselOfBit f.asel) f.imm8)
  else if f.op = 0x05#8 then .instr (.symbolof (aselOfBit f.asel) f.imm8)
  else if f.op = 0x06#8 ∧ f.asel = 0#1 ∧ f.imm8 = 0#8 then .instr .srst
  else if f.op.toNat ≤ 0x06 then .illegal .unusedField
  else .illegal .reservedOpcode

/-- `dec(w)` (R95): decoding is total on 32-bit words. -/
def dec (w : Word) : Decoded := decFields (fieldsOf w)

/-- The fields of each command's word (R91, R92): opcode, `ASEL` and `IMM8` where used, every other bit 0. -/
def encFields : Instr → CommandFields
  | .nop => { op := 0x00, asel := 0, rsv0 := 0, imm8 := 0, rsv1 := 0 }
  | .encode a => { op := 0x01, asel := bitOfAsel a, rsv0 := 0, imm8 := 0, rsv1 := 0 }
  | .decode a => { op := 0x02, asel := bitOfAsel a, rsv0 := 0, imm8 := 0, rsv1 := 0 }
  | .ldalpha => { op := 0x03, asel := 0, rsv0 := 0, imm8 := 0, rsv1 := 0 }
  | .digitof a b => { op := 0x04, asel := bitOfAsel a, rsv0 := 0, imm8 := b, rsv1 := 0 }
  | .symbolof a d => { op := 0x05, asel := bitOfAsel a, rsv0 := 0, imm8 := d, rsv1 := 0 }
  | .srst => { op := 0x06, asel := 0, rsv0 := 0, imm8 := 0, rsv1 := 0 }

/-- The word of a command (R92, R98). -/
def encode (i : Instr) : Word := packFields (encFields i)

/-- The `mask` column of the opcode map (R92). -/
def tableMask : Instr → Word
  | .nop => 0xFFFFFFFF#32
  | .encode _ => 0xFFFFFEFF#32
  | .decode _ => 0xFFFFFEFF#32
  | .ldalpha => 0xFFFFFFFF#32
  | .digitof _ _ => 0xFF00FEFF#32
  | .symbolof _ _ => 0xFF00FEFF#32
  | .srst => 0xFFFFFFFF#32

/-- The `match` column of the opcode map (R92). -/
def tableMatch : Instr → Word
  | .nop => 0x00000000#32
  | .encode _ => 0x00000001#32
  | .decode _ => 0x00000002#32
  | .ldalpha => 0x00000003#32
  | .digitof _ _ => 0x00000004#32
  | .symbolof _ _ => 0x00000005#32
  | .srst => 0x00000006#32

/-- The instruction the decoder reads from a word numbered as spec/opcode_table.json numbers it. A command is one
32-bit word and moves only as a whole (R62, R97), so the table's bit numbers are the word's own; a word with a bit above
31 is no command word. -/
def decodeTableWord (nbits w : Nat) : Option Instr :=
  if w % 2 ^ nbits < 2 ^ 32 then (dec (BitVec.ofNat 32 (w % 2 ^ nbits))).instr? else none

end Sys2Proof
end

