-- ==== Sys2Proof/Config.lean ====
section
/-! DEFINITION. What one implementation of B58CONV fixes (spec/00_scope.md R5 to R8) and the values the spec leaves
free (spec/93_implementation_defined.md U1, U2, U4, U5). -/

namespace Sys2Proof

/-- The inverse-table value that means "not a valid digit" (R8). -/
def SENTINEL : Byte := 0xFF#8

/-- `ID`, the constant of R30. -/
def ID_VALUE : Word := 0x42353801#32

/-- The parameters of one instance (R6, R8): the two buffer capacities, which `CAP` shows to the host (R31), and the
content of the alphabet ROM `RSYM` (R44). They are plain data carried in `State.cfg`, no step writes them, and a claim
about every state is a claim about every instance (notes/assumptions/1.md). -/
structure Config where
  /-- `N_MAX`, the capacity of `BBUF` in bytes, as `CAP[15:0]` holds it. -/
  nMax : Half
  /-- `T_MAX`, the capacity of `TBUF` in bytes, as `CAP[31:16]` holds it. -/
  tMax : Half
  /-- `ROM_ALPHA`, the 58 entries of `RSYM`. -/
  romAlpha : Vector Byte 58
  deriving DecidableEq, Repr

/-- What R6 and R110 require of the parameters: `1 <= N_MAX, T_MAX <= 65535` (the upper bounds are the fields' width)
and 58 distinct ROM symbols. -/
def Config.wf (c : Config) : Prop := 0 < c.nMax.toNat ∧ 0 < c.tMax.toNat ∧ c.romAlpha.toList.Nodup

/-- The advisory parameter constraint of R7: `58^T_MAX >= 256^N_MAX`. -/
def Config.roomy (c : Config) : Prop := 256 ^ c.nMax.toNat ≤ 58 ^ c.tMax.toNat

/-- FREE VALUE (U1, R231): what byte `off` of a buffer holds after hardware reset number `epoch`, until it is written
(notes/assumptions/3.md). -/
opaque Config.anyRamByte (epoch off : Nat) : Byte

/-- FREE VALUE (U4, R238): the value of one 32-bit register read made while busy
(notes/assumptions/4.md). -/
opaque Config.anyWord (draw : Nat) : Word

/-- FREE VALUE (U5, R238): the value of one buffer byte read made while busy (notes/assumptions/4.md). -/
opaque Config.anyByte (draw : Nat) : Byte

/-- FREE VALUE (U2, R46): the content of `CSYM` while no custom alphabet is loaded (notes/assumptions/5.md). -/
opaque Config.anySyms (draw : Nat) : Vector Byte 58

/-- FREE VALUE (U2, R47): the content of `CINV` while no custom alphabet is loaded (notes/assumptions/5.md). -/
opaque Config.anyInv (draw : Nat) : Vector Byte 256

end Sys2Proof
end

