-- ==== Sys2Proof/Machine/Tables.lean ====
section
/-! DEFINITION. The alphabet tables (spec/40_alphabet.md R110 to R114): the content of the alphabet ROM, the inverse
table an ordering of symbols determines, and the two lookups `symbolOf` and `digitOf`. -/

namespace Sys2Proof.Machine

/-- An alphabet as the engine reads it: a symbol table (`RSYM` or `CSYM`) and an inverse table (`RINV` or `CINV`). -/
structure Alphabet where
  sym : Vector Byte 58
  inv : Vector Byte 256
  deriving DecidableEq, Repr

/-- The 58 bytes of `ROM_ALPHA`, index 0 first (R113; PRESUMED beyond the thirteen entries the source confirms,
notes/assumptions/2.md). -/
def romAlphaBytes : List Byte :=
  [0x31#8, 0x32#8, 0x33#8, 0x34#8, 0x35#8, 0x36#8, 0x37#8, 0x38#8, 0x39#8, 0x41#8] ++
  [0x42#8, 0x43#8, 0x44#8, 0x45#8, 0x46#8, 0x47#8, 0x48#8, 0x4A#8, 0x4B#8, 0x4C#8] ++
  [0x4D#8, 0x4E#8, 0x50#8, 0x51#8, 0x52#8, 0x53#8, 0x54#8, 0x55#8, 0x56#8, 0x57#8] ++
  [0x58#8, 0x59#8, 0x5A#8, 0x61#8, 0x62#8, 0x63#8, 0x64#8, 0x65#8, 0x66#8, 0x67#8] ++
  [0x68#8, 0x69#8, 0x6A#8, 0x6B#8, 0x6D#8, 0x6E#8, 0x6F#8, 0x70#8, 0x71#8, 0x72#8] ++
  [0x73#8, 0x74#8, 0x75#8, 0x76#8, 0x77#8, 0x78#8, 0x79#8, 0x7A#8]

/-- `ROM_ALPHA` as the 58-entry table `RSYM` (R44, R113). -/
def romAlpha : Vector Byte 58 := ⟨⟨romAlphaBytes⟩, by decide⟩

/-- The default instance of R6: `N_MAX = 64`, `T_MAX = 88`, with the ROM content of R113. -/
def defaultConfig : Config where
  nMax := 64#16
  tMax := 88#16
  romAlpha := romAlpha

/-- One entry of the inverse table of R112: the digit whose symbol is `b`, or `SENTINEL`. -/
def invEntry (sym : Vector Byte 58) (b : Byte) : Byte :=
  match sym.toList.findIdx? (fun x => x == b) with
  | some d => BitVec.ofNat 8 d
  | none => SENTINEL

/-- The inverse table `INV_A` of the symbol table `sym` (R112), all 256 entries. -/
def invTable (sym : Vector Byte 58) : Vector Byte 256 :=
  ⟨⟨(List.range 256).map (fun n => invEntry sym (BitVec.ofNat 8 n))⟩, by simp⟩

/-- The alphabet a symbol table denotes (R110, R112). -/
def alphabetOf (sym : Vector Byte 58) : Alphabet := { sym := sym, inv := invTable sym }

/-- `symbolOf_A(d)` (R111). -/
def symbolOf (A : Alphabet) (d : Digit) : Byte := A.sym[d.val]

/-- The inverse-table entry of a byte: a digit value or `SENTINEL` (R112). -/
def invOf (A : Alphabet) (b : Byte) : Byte := A.inv[b.toNat]'b.isLt

/-- `digitOf_A(b)` (R112): a digit value, or "invalid" for `SENTINEL`. -/
def digitOf (A : Alphabet) (b : Byte) : Option Nat :=
  if invOf A b = SENTINEL then none else some (invOf A b).toNat

/-- An alphabet in the sense of R110 with its own inverse table (R112): 58 distinct symbols. -/
def Alphabet.wf (A : Alphabet) : Prop := A.sym.toList.Nodup ∧ A.inv = invTable A.sym

end Sys2Proof.Machine
end

