-- ==== Sys2Proof/Machine/State.lean ====
section
/-! DEFINITION. The state of B58CONV (spec/10_state.md R20), the reasons a step can stop, the errors a command can
raise (spec/60_exceptions.md R191), and the state after hardware reset (R49). -/

namespace Sys2Proof.Machine

/-- The error kinds of R191. `checksumTooShort` and `checksumMismatch` are reserved and never raised (R194). -/
inductive CmdError where
  | alphabetError
  | invalidCharacter
  | checksumTooShort
  | checksumMismatch
  | illegalCommand
  | badLength
  | overflow
  | alphabetNotLoaded
  | digitRange
  deriving DecidableEq, Repr

/-- Why the machine stops. No command stops: a failing command completes with an error report (R190). -/
inductive Fault where
  /-- Raised by the host port for an access at `off >= 0x30000`: such an offset does not belong to the block (R61), and
  R62 has no such access. SAFE: the model stops where the real block is not addressed (notes/assumptions/8.md). -/
  | outsideWindow (off : Nat)
  deriving DecidableEq, Repr

/-- Why an instruction is refused. -/
inductive Refusal where
  /-- Raised by an arm of `exec` that has no meaning yet; no arm of this model is one. SAFE. -/
  | notModelled (mnemonic : String)
  deriving DecidableEq, Repr

/-- The architectural state (R20), then the model's own bookkeeping. `ID` is the constant `ID_VALUE`; `CAP` and the ROM
tables `RSYM`, `RINV` are read from `cfg` (R20: constants that a model may treat as configuration). -/
structure State where
  /-- `N_MAX`, `T_MAX` (the content of `CAP`) and `ROM_ALPHA` (the content of `RSYM`); written by no step. -/
  cfg : Config
  /-- `CMD`: the latched command word `LCMD` (R32). -/
  lcmd : Word
  /-- `STATUS.BUSY` (R34). -/
  busy : Bool
  /-- `STATUS.DONE` (R35). -/
  done : Bool
  /-- `STATUS.ERR` (R36). -/
  err : Bool
  /-- `STATUS.AVALID` (R37). -/
  avalid : Bool
  /-- `ERRCODE[7:0]` (R38). -/
  errcode : Byte
  /-- `ERRBYTE[7:0]` (R39). -/
  errbyte : Byte
  /-- `ERRPOS[31:0]` (R40). -/
  errpos : Word
  /-- `BLEN[15:0]` (R24). -/
  blen : Half
  /-- `TLEN[15:0]` (R25). -/
  tlen : Half
  /-- `ALEN[7:0]` (R26). -/
  alen : Byte
  /-- `RES[7:0]` (R27). -/
  res : Byte
  /-- The buffer bytes written since hardware reset, by host offset: `ASTG` (R41), `BBUF` (R42), `TBUF` (R43). Offsets
  rise strictly; an offset that is not listed has no determined value (R231) and reads as a free value. -/
  mem : List Host.Cell
  /-- `CSYM`, the custom symbol table (R46). -/
  csym : Vector Byte 58
  /-- `CINV`, the custom inverse table (R47). -/
  cinv : Vector Byte 256
  /-- MODEL'S OWN: which hardware reset the unwritten buffer bytes date from; it indexes their free values
  (notes/assumptions/3.md). -/
  ramEpoch : Nat
  /-- MODEL'S OWN: how many free values have been drawn (notes/assumptions/4.md). -/
  draws : Nat
  /-- MODEL'S OWN: what the three agents do next, in order (R9, R71): the inputs that the step reads
  (notes/assumptions/6.md). -/
  pending : List Event
  /-- MODEL'S OWN: what host reads have returned, newest first (notes/assumptions/7.md). -/
  replies : List Reply
  deriving DecidableEq, Repr

/-- The outcome of one step of this machine. -/
abbrev Result := Host.Outcome State Fault Refusal

/-- The state right after hardware reset (R49, R230, R231) of the default instance (R6), with no input pending. -/
def State.reset : State where
  cfg := defaultConfig
  lcmd := 0
  busy := false
  done := false
  err := false
  avalid := false
  errcode := 0
  errbyte := 0
  errpos := 0
  blen := 0
  tlen := 0
  alen := 0
  res := 0
  mem := []
  csym := Config.anySyms 0
  cinv := Config.anyInv 0
  ramEpoch := 0
  draws := 1
  pending := []
  replies := []

end Sys2Proof.Machine
end

