-- ==== Sys2Proof/Machine/Flags.lean ====
section
/-! DEFINITION. The four `STATUS` flags (spec/10_state.md R33 to R37): the value of the register, and every way they
are written. No command computes a flag from a result; issue, completion, `SRST` and reset write them. -/

namespace Sys2Proof.Machine

/-- `STATUS` as a 32-bit value: `BUSY` in bit 0, `DONE` in bit 1, `ERR` in bit 2, `AVALID` in bit 3, the reserved bits 0
(R28, R33). -/
def statusWord (s : State) : Word :=
  BitVec.ofNat 32 (s.busy.toNat + s.done.toNat * 2 + s.err.toNat * 4 + s.avalid.toNat * 8)

/-- The flags issue leaves (R181): `BUSY`. -/
def flagsIssued (s : State) : State := { s with busy := true, done := false, err := false }

/-- The flags a completion without error leaves (R182): `DONE`. -/
def flagsDone (s : State) : State := { s with busy := false, done := true, err := false }

/-- The flags a completion with an error leaves (R182, R200): `DONE` and `ERR`. -/
def flagsFailed (s : State) : State := { s with busy := false, done := true, err := true }

/-- The flags `SRST` and hardware reset leave (R186, R49): none of the four. -/
def flagsCleared (s : State) : State := { s with busy := false, done := false, err := false, avalid := false }

end Sys2Proof.Machine
end

