-- ==== Sys2Proof/Machine/Ops.lean ====
section
/-! DEFINITION. The operations the commands and the host port share: one byte of memory and runs of bytes
(spec/20_memory.md R61, R76), issue (spec/43_control.md R181), completion (R182), raising an error, which is this
hardware's taking of an exception (spec/60_exceptions.md R200), and hardware reset (spec/70_reset_and_hazards.md R230).
An error is left by the next issue: there is no return (R203). -/

namespace Sys2Proof.Machine

/-- The offset of `ASTG[0]` (R61). -/
def astgBase : Nat := 0x40

/-- `ASTG_SIZE` (R8). -/
def astgSize : Nat := 64

/-- The offset of `BBUF[0]` (R61). -/
def bbufBase : Nat := 0x10000

/-- The offset of `TBUF[0]` (R61). -/
def tbufBase : Nat := 0x20000

/-- Whether an offset addresses a buffer byte (R63). -/
def isBufferByte (c : Config) (off : Nat) : Bool :=
  decide ((astgBase ≤ off ∧ off < astgBase + astgSize) ∨ (bbufBase ≤ off ∧ off < bbufBase + c.nMax.toNat) ∨
    (tbufBase ≤ off ∧ off < tbufBase + c.tMax.toNat))

/-- The byte listed at an offset, if one is. -/
def lookupCell : List Host.Cell → Nat → Option Byte
  | [], _ => none
  | (a, v) :: rest, off => if a = off then some v else lookupCell rest off

/-- Listing a byte at an offset, offsets kept strictly rising. -/
def insertCell : List Host.Cell → Nat → Byte → List Host.Cell
  | [], off, v => [(off, v)]
  | (a, w) :: rest, off, v =>
    if off < a then (off, v) :: (a, w) :: rest
    else if off = a then (off, v) :: rest
    else (a, w) :: insertCell rest off v

/-- The canonical form of memory: the listed offsets rise strictly. An unlisted offset has no determined value, so no
entry equals what an unlisted offset reads as, and equal memories are equal lists (notes/assumptions/3.md). -/
abbrev Memory.wf (m : List Host.Cell) : Prop := m.Pairwise (fun a b => a.1 < b.1)

/-- The buffer byte at an offset: what was last written there, or the free value it holds since hardware reset (U1). -/
def readByte (s : State) (off : Nat) : Byte :=
  (lookupCell s.mem off).getD (Config.anyRamByte s.ramEpoch off)

/-- Storing one buffer byte. -/
def writeByte (off : Nat) (v : Byte) (s : State) : State := { s with mem := insertCell s.mem off v }

/-- The `n` buffer bytes from an offset on. -/
def readBytes (s : State) (base n : Nat) : List Byte := (List.range n).map (fun i => readByte s (base + i))

/-- Storing a run of buffer bytes from an offset on. -/
def writeBytes : Nat → List Byte → State → State
  | _, [], s => s
  | base, v :: vs, s => writeBytes (base + 1) vs (writeByte base v s)

/-- The numeric code of an error (R191). -/
def codeOf : CmdError → Byte
  | .alphabetError => 1
  | .invalidCharacter => 2
  | .checksumTooShort => 3
  | .checksumMismatch => 4
  | .illegalCommand => 5
  | .badLength => 6
  | .overflow => 7
  | .alphabetNotLoaded => 8
  | .digitRange => 9

/-- The custom slot holds no alphabet any more: `AVALID` is 0 and `CSYM`, `CINV` are unspecified (R46, R47, R120, R186). -/
def forgetCustom (s : State) : State :=
  { s with
    avalid := false, csym := Config.anySyms s.draws, cinv := Config.anyInv s.draws, draws := s.draws + 1 }

/-- The error report: `ERRCODE`, `ERRBYTE`, `ERRPOS` (R200). -/
def report (code byte : Byte) (pos : Word) (s : State) : State :=
  { s with errcode := code, errbyte := byte, errpos := pos }

/-- `raise E(byte, pos)` with the tail of R182 (R200): the error report, the flags, and for `AlphabetError` alone the
loss of the custom alphabet. Nothing else changes. -/
def raise (e : CmdError) (byte : Byte) (pos : Word) (s : State) : State :=
  if e = .alphabetError then forgetCustom (flagsFailed (report (codeOf e) byte pos s))
  else flagsFailed (report (codeOf e) byte pos s)

/-- The common tail of a command whose body ran to its end (R182). -/
def finish (s : State) : State := flagsDone s

/-- Issue (R181): the word is latched, the engine is busy, the report of the previous command is cleared. -/
def issue (w : Word) (s : State) : State := { flagsIssued (report 0 0 0 s) with lcmd := w }

/-- Every register and flag at its reset value (R49, R186): the part `SRST` and hardware reset share. `CSYM` and `CINV`
become unspecified. -/
def clearRegisters (s : State) : State :=
  { forgetCustom (flagsCleared (report 0 0 0 s)) with lcmd := 0, blen := 0, tlen := 0, alen := 0, res := 0 }

/-- Hardware reset (R230, R231, R232): the registers cleared, and every buffer byte unspecified, by a fresh draw. -/
def hardReset (s : State) : State :=
  { clearRegisters s with mem := [], ramEpoch := s.draws }

end Sys2Proof.Machine
end

