-- ==== Sys2Proof/Machine/Operands.lean ====
section
/-! DEFINITION. The operands of the commands: the selected alphabet (spec/40_alphabet.md R116) and the operands that
are implicit in the opcode (spec/30_encoding.md R94), which the engine reads by byte index (spec/20_memory.md R76). -/

namespace Sys2Proof.Machine

/-- The ROM alphabet: `RSYM` (R44) and `RINV`, which `RSYM` determines (R45). -/
def romAlphabet (s : State) : Alphabet := alphabetOf s.cfg.romAlpha

/-- The custom alphabet as stored: `CSYM` and `CINV` (R46, R47). -/
def customAlphabet (s : State) : Alphabet := { sym := s.csym, inv := s.cinv }

/-- The selected alphabet (R116); none for `ASEL = 1` while `AVALID = 0`. -/
def selectAlphabet : AlphaSel → State → Option Alphabet
  | .rom, s => some (romAlphabet s)
  | .cust, s => if s.avalid then some (customAlphabet s) else none

/-- The payload `BBUF[0..BLEN)` (R42, R94). -/
def payload (s : State) : List Byte := readBytes s bbufBase s.blen.toNat

/-- The text `TBUF[0..TLEN)` (R43, R94). -/
def text (s : State) : List Byte := readBytes s tbufBase s.tlen.toNat

/-- The 58 candidate symbols `ASTG[0..58)` (R41, R94). -/
def staged (s : State) : List Byte := readBytes s astgBase 58

/-- A length register's value as `ERRPOS` records it (R191, R196). -/
def lengthWord (n : Half) : Word := n.setWidth 32

/-- A count or an index as `ERRPOS` records it (R191). -/
def posWord (n : Nat) : Word := BitVec.ofNat 32 n

end Sys2Proof.Machine
end

