-- ==== Sys2Proof/Machine/Radix.lean ====
section
/-! DEFINITION. The mathematical primitives (spec/00_scope.md R10 to R14) and the two conversions, `enc`
(spec/41_encode.md R141) and `dec` (spec/42_decode.md R161), over unbounded naturals. -/

namespace Sys2Proof.Machine

/-- `val256(s)`: the base-256 big-endian value of a byte sequence (R10). -/
def val256 : List Byte → Nat
  | [] => 0
  | b :: rest => b.toNat * 256 ^ rest.length + val256 rest

/-- The remainders of repeated division of `v` by `base`, least significant first, until the quotient is 0 (R11). The
first argument bounds the recursion; `v` itself is always enough. -/
def remainders (base : Nat) : Nat → Nat → List Nat
  | 0, _ => []
  | fuel + 1, v => if v = 0 then [] else v % base :: remainders base fuel (v / base)

/-- `digits58(V)`: the base-58 digits, most significant first, no leading zero digit (R11). -/
def digits58 (v : Nat) : List Digit := (remainders 58 v v).reverse.map (Fin.ofNat 58)

/-- `val58(d)`: the base-58 value of a digit sequence, most significant first (R12). -/
def val58 (d : List Nat) : Nat := d.foldl (fun acc x => acc * 58 + x) 0

/-- `minbytes(V)`: the minimal big-endian byte representation (R13). -/
def minbytes (v : Nat) : List Byte := (remainders 256 v v).reverse.map (BitVec.ofNat 8)

/-- `lead(s, x)`: the number of leading occurrences of `x` in `s` (R14). -/
def lead (s : List Byte) (x : Byte) : Nat := (s.takeWhile (fun y => y == x)).length

/-- `enc_A(b)` (R141): one zero-digit symbol for each leading zero byte, then the digits of the rest through
`symbolOf`. -/
def encText (A : Alphabet) (b : List Byte) : List Byte :=
  let z := lead b 0#8
  List.replicate z (symbolOf A 0) ++ (digits58 (val256 (b.drop z))).map (symbolOf A)

/-- `dec_A(s)` (R161), for a text all of whose elements are symbols of `A`. -/
def decText (A : Alphabet) (s : List Byte) : List Byte :=
  let z := lead s (symbolOf A 0)
  List.replicate z 0#8 ++ minbytes (val58 (s.map (fun b => (invOf A b).toNat)))

/-- The least index of a symbol with no valid digit, and that symbol (R164). -/
def firstInvalid (A : Alphabet) : List Byte → Option (Nat × Byte)
  | [] => none
  | b :: rest =>
    if invOf A b = SENTINEL then some (0, b) else (firstInvalid A rest).map (fun p => (p.1 + 1, p.2))

/-- The least index `j` whose entry repeats an earlier one, and that entry (R120); `seen` holds the entries before. -/
def firstRepeat (seen : List Byte) : List Byte → Option (Nat × Byte)
  | [] => none
  | b :: rest => if b ∈ seen then some (seen.length, b) else firstRepeat (b :: seen) rest

end Sys2Proof.Machine
end

