-- ==== Sys2Proof/Machine/Alpha.lean ====
section
/-! DEFINITION. The meanings of `LDALPHA`, `DIGITOF` and `SYMBOLOF` (spec/40_alphabet.md R120, R125, R126). -/

namespace Sys2Proof.Machine

/-- The staged symbols as a 58-entry table. -/
def stagedTable (s : State) : Vector Byte 58 :=
  ⟨⟨staged s⟩, by simp [staged, readBytes]⟩

/-- What a successful `LDALPHA` writes (R120): `CSYM`, `CINV` and `AVALID`, together. -/
def loadCustom (sym : Vector Byte 58) (s : State) : State :=
  { s with csym := sym, cinv := invTable sym, avalid := true }

/-- `LDALPHA` (R120): the count is tested first, then the least later index of a duplicate. -/
def execLdalpha (s : State) : Result :=
  if s.alen ≠ 58#8 then .next (raise .alphabetError 0 (s.alen.setWidth 32) s)
  else
    match firstRepeat [] (staged s) with
    | some (j, b) => .next (raise .alphabetError b (posWord j) s)
    | none => .next (finish (loadCustom (stagedTable s) s))

/-- Writing `RES` (R27). -/
def setRes (v : Byte) (s : State) : State := { s with res := v }

/-- `DIGITOF` (R125): an invalid byte is a result, `SENTINEL`, and no error. -/
def execDigitof (a : AlphaSel) (imm8 : Byte) (s : State) : Result :=
  match selectAlphabet a s with
  | none => .next (raise .alphabetNotLoaded 0 0 s)
  | some A => .next (finish (setRes (invOf A imm8) s))

/-- `SYMBOLOF` (R126): digits 58..255 raise `DigitRange`. -/
def execSymbolof (a : AlphaSel) (imm8 : Byte) (s : State) : Result :=
  match selectAlphabet a s with
  | none => .next (raise .alphabetNotLoaded 0 0 s)
  | some A =>
    if h : imm8.toNat < 58 then .next (finish (setRes (symbolOf A ⟨imm8.toNat, h⟩) s))
    else .next (raise .digitRange imm8 0 s)

end Sys2Proof.Machine
end

