-- ==== Sys2Proof/Machine/Control.lean ====
section
/-! DEFINITION. The meanings of `NOP` and `SRST` (spec/43_control.md R184, R186). -/

namespace Sys2Proof.Machine

/-- `NOP` (R184): an empty body, then the common tail. -/
def execNop (s : State) : Result := .next (finish s)

/-- `SRST` (R186): every register and flag to its reset value, in place of the common tail; the buffers keep their
contents. -/
def execSrst (s : State) : Result := .next (clearRegisters s)

end Sys2Proof.Machine
end

