-- ==== Sys2Proof/Machine/Convert.lean ====
section
/-! DEFINITION. The meanings of `ENCODE` and `DECODE` (spec/41_encode.md R140, spec/42_decode.md R160), over the
integer-level functions of R141 and R161. -/

namespace Sys2Proof.Machine

/-- What a successful `ENCODE` writes: `TBUF[0..|e|)` and `TLEN` (R140). -/
def commitText (e : List Byte) (s : State) : State :=
  { writeBytes tbufBase e s with tlen := BitVec.ofNat 16 e.length }

/-- What a successful `DECODE` writes: `BBUF[0..|r|)` and `BLEN` (R160). -/
def commitPayload (r : List Byte) (s : State) : State :=
  { writeBytes bbufBase r s with blen := BitVec.ofNat 16 r.length }

/-- `ENCODE` (R140); the errors in the order R202 gives. -/
def execEncode (a : AlphaSel) (s : State) : Result :=
  match selectAlphabet a s with
  | none => .next (raise .alphabetNotLoaded 0 0 s)
  | some A =>
    if s.cfg.nMax.toNat < s.blen.toNat then .next (raise .badLength 0 (lengthWord s.blen) s)
    else if s.cfg.tMax.toNat < (encText A (payload s)).length then .next (raise .overflow 0 0 s)
    else .next (finish (commitText (encText A (payload s)) s))

/-- `DECODE` (R160): the whole text is validated before anything is computed; the errors in the order R202 gives. -/
def execDecode (a : AlphaSel) (s : State) : Result :=
  match selectAlphabet a s with
  | none => .next (raise .alphabetNotLoaded 0 0 s)
  | some A =>
    if s.cfg.tMax.toNat < s.tlen.toNat then .next (raise .badLength 0 (lengthWord s.tlen) s)
    else
      match firstInvalid A (text s) with
      | some (i, b) => .next (raise .invalidCharacter b (posWord i) s)
      | none =>
        if s.cfg.nMax.toNat < (decText A (text s)).length then .next (raise .overflow 0 0 s)
        else .next (finish (commitPayload (decText A (text s)) s))

end Sys2Proof.Machine
end

