-- ==== Sys2Proof/Machine/Dispatch.lean ====
section
/-! DEFINITION. One arm per command: the body of `Complete` for a legal command word (spec/43_control.md R182). -/

namespace Sys2Proof.Machine

def exec (i : Instr) (s : State) : Host.Outcome State Fault Refusal :=
  match i with
  | .nop => Sys2Proof.Machine.execNop s
  | .encode a => Sys2Proof.Machine.execEncode a s
  | .decode a => Sys2Proof.Machine.execDecode a s
  | .ldalpha => Sys2Proof.Machine.execLdalpha s
  | .digitof a b => Sys2Proof.Machine.execDigitof a b s
  | .symbolof a d => Sys2Proof.Machine.execSymbolof a d s
  | .srst => Sys2Proof.Machine.execSrst s

end Sys2Proof.Machine
end

