-- ==== Sys2Proof/Machine/HostPort.lean ====
section
/-! DEFINITION. The host port (spec/20_memory.md R62 to R64, spec/10_state.md R22 to R40): the register map, the four
accesses while the engine is idle, and what replaces them while it is busy (spec/70_reset_and_hazards.md R237, R238). -/

namespace Sys2Proof.Machine

/-- The eleven registers (R28). -/
inductive Reg where
  | id
  | cap
  | cmd
  | status
  | errcode
  | errbyte
  | errpos
  | blen
  | tlen
  | alen
  | res
  deriving DecidableEq, Repr

/-- The register at an offset (R28); every other offset is no valid target of a 32-bit access (R63). -/
def regAt (off : Nat) : Option Reg :=
  match off with
  | 0x00 => some .id
  | 0x04 => some .cap
  | 0x08 => some .cmd
  | 0x0C => some .status
  | 0x10 => some .errcode
  | 0x14 => some .errbyte
  | 0x18 => some .errpos
  | 0x1C => some .blen
  | 0x20 => some .tlen
  | 0x24 => some .alen
  | 0x28 => some .res
  | _ => none

/-- The offset of a register (R28). -/
def regOffset : Reg → Nat
  | .id => 0x00
  | .cap => 0x04
  | .cmd => 0x08
  | .status => 0x0C
  | .errcode => 0x10
  | .errbyte => 0x14
  | .errpos => 0x18
  | .blen => 0x1C
  | .tlen => 0x20
  | .alen => 0x24
  | .res => 0x28

/-- The value of a register as a 32-bit word, reserved bits 0 (R22, R28). -/
def readReg : Reg → State → Word
  | .id, _ => ID_VALUE
  | .cap, s => BitVec.ofNat 32 (s.cfg.nMax.toNat + s.cfg.tMax.toNat * 0x10000)
  | .cmd, s => s.lcmd
  | .status, s => statusWord s
  | .errcode, s => s.errcode.setWidth 32
  | .errbyte, s => s.errbyte.setWidth 32
  | .errpos, s => s.errpos
  | .blen, s => s.blen.setWidth 32
  | .tlen, s => s.tlen.setWidth 32
  | .alen, s => s.alen.setWidth 32
  | .res, s => s.res.setWidth 32

/-- A host write to a register while idle: `CMD` issues a command, a RW register stores the bits of its field, a RO
register ignores it (R22, R24 to R26, R63). -/
def writeReg : Reg → Word → State → State
  | .id, _, s => s
  | .cap, _, s => s
  | .cmd, v, s => issue v s
  | .status, _, s => s
  | .errcode, _, s => s
  | .errbyte, _, s => s
  | .errpos, _, s => s
  | .blen, v, s => { s with blen := v.extractLsb' 0 16 }
  | .tlen, v, s => { s with tlen := v.extractLsb' 0 16 }
  | .alen, v, s => { s with alen := v.extractLsb' 0 8 }
  | .res, _, s => s

/-- The registers whose read value is defined while busy: `ID`, `CAP`, `CMD`, `STATUS` (R33, R238). -/
def definedWhileBusy : Reg → Bool
  | .id => true
  | .cap => true
  | .cmd => true
  | .status => true
  | .errcode => false
  | .errbyte => false
  | .errpos => false
  | .blen => false
  | .tlen => false
  | .alen => false
  | .res => false

/-- The value of a read is recorded as the newest reply. -/
def reply (r : Reply) (s : State) : State := { s with replies := r :: s.replies }

/-- A read whose value is unspecified takes one fresh draw and has no other effect (R238). -/
def countDraw (s : State) : State := { s with draws := s.draws + 1 }

/-- `HostRead32` (R63, R64, R238). -/
def hostRead32 (off : Nat) (s : State) : State :=
  match regAt off with
  | none => reply (.word 0) s
  | some r =>
    if s.busy && !definedWhileBusy r then countDraw (reply (.word (Config.anyWord s.draws)) s)
    else reply (.word (readReg r s)) s

/-- `HostWrite32` (R63, R64, R237). -/
def hostWrite32 (off : Nat) (v : Word) (s : State) : State :=
  match regAt off with
  | none => s
  | some r => if s.busy then s else writeReg r v s

/-- `HostRead8` (R63, R64, R238). -/
def hostRead8 (off : Nat) (s : State) : State :=
  if isBufferByte s.cfg off then
    if s.busy then countDraw (reply (.byte (Config.anyByte s.draws)) s) else reply (.byte (readByte s off)) s
  else reply (.byte 0) s

/-- `HostWrite8` (R63, R64, R237). -/
def hostWrite8 (off : Nat) (v : Byte) (s : State) : State :=
  if isBufferByte s.cfg off then if s.busy then s else writeByte off v s else s

/-- One host access as one indivisible step (R62, R68); an offset outside the window is no access of this port. -/
def hostAccess (a : HostAccess) (s : State) : Result :=
  if a.off < WINDOW then
    match a with
    | .read32 off => .next (hostRead32 off s)
    | .write32 off v => .next (hostWrite32 off v s)
    | .read8 off => .next (hostRead8 off s)
    | .write8 off v => .next (hostWrite8 off v s)
  else .fault (.outsideWindow a.off)

end Sys2Proof.Machine
end

