-- ==== Sys2Proof/Machine/Engine.lean ====
section
/-! DEFINITION. The engine's step `Complete` (spec/43_control.md R182), and one step of any of the three agents
(spec/00_scope.md R9). -/

namespace Sys2Proof.Machine

/-- `Complete` (R182) in a busy state: the latched word is decoded; an illegal one raises `IllegalCommand` (R96, R195),
a command runs. -/
def complete (s : State) : Result :=
  match dec s.lcmd with
  | .illegal _ => .next (raise .illegalCommand 0 0 s)
  | .instr i => exec i s

/-- One event. The engine takes no step while `BUSY = 0` (R182). -/
def perform : Event → State → Result
  | .access a, s => hostAccess a s
  | .complete, s => if s.busy then complete s else .next s
  | .hardReset, s => .next (hardReset s)

/-- What happens next: the first pending event; with none pending only the engine can move (R9, R240). -/
def nextEvent (s : State) : Event :=
  match s.pending with
  | [] => .complete
  | e :: _ => e

/-- The state with the event taken out of the pending ones. -/
def takeEvent (s : State) : State := { s with pending := s.pending.tail }

end Sys2Proof.Machine
end

