-- ==== Sys2Proof/Machine/Step.lean ====
section
/-! DEFINITION. One step of the machine, and how the host of these checks places one command word where the next step
runs it. -/

namespace Sys2Proof.Machine

/-- One step: the next event is taken and performed. With nothing pending, a busy engine completes and an idle one does
nothing (spec/60_exceptions.md R220, spec/70_reset_and_hazards.md R240). -/
def step (s : State) : Host.Outcome State Fault Refusal := perform (nextEvent s) (takeEvent s)

/-- `s` with a command word issued (R181) and the engine's `Complete` as the very next event. The word has `nbits` bits
and zeros above them. -/
def State.withFetchWord (s : State) (nbits w : Nat) : State :=
  { issue (BitVec.ofNat 32 (w % 2 ^ nbits)) s with pending := .complete :: s.pending }

end Sys2Proof.Machine
end

