-- ==== Sys2Proof/Machine/Datapath.lean ====
section
/-! DEFINITION. The reference datapaths (spec/41_encode.md R148, spec/42_decode.md R168) and the reference procedure of
the duplicate test (spec/40_alphabet.md R121). They are not architectural (spec/10_state.md R48): no step runs them, and
the scratch memories `ACC`, `DSTK`, `W` are their local values. They are here to be proved equal to what the commands
compute. -/

namespace Sys2Proof.Machine

/-- One pass of R148, a division of `ACC` (most significant byte first) by 58: `t = rem * 256 + ACC[i]`,
`ACC[i] <- t div 58`, `rem <- t mod 58`. Answers the quotient bytes and the last remainder. -/
def dividePass : Nat → List Byte → List Byte × Nat
  | rem, [] => ([], rem)
  | rem, b :: rest =>
    let p := dividePass ((rem * 256 + b.toNat) % 58) rest
    (BitVec.ofNat 8 ((rem * 256 + b.toNat) / 58) :: p.1, p.2)

/-- Moving `start` past the leading zero bytes of the quotient (R148). -/
def skipZeros (acc : List Byte) : List Byte := acc.dropWhile (fun b => b == 0#8)

/-- The passes of R148: the digit stack `DSTK`, least significant digit first. The first argument is the room left in
the output; none is the `Overflow` that a configuration without R7 must raise. -/
def divideLoop : Nat → List Byte → Option (List Nat)
  | _, [] => some []
  | 0, _ :: _ => none
  | room + 1, b :: rest =>
    (divideLoop room (skipZeros (dividePass 0 (b :: rest)).1)).map (fun ds => (dividePass 0 (b :: rest)).2 :: ds)

/-- The reference `ENCODE` datapath (R148): the text it writes, or none for `Overflow`. -/
def encodeDatapath (A : Alphabet) (tMax : Nat) (b : List Byte) : Option (List Byte) :=
  let z := lead b 0#8
  if tMax < z then none
  else (divideLoop (tMax - z) (b.drop z)).map
    (fun ds => List.replicate z (symbolOf A 0) ++ ds.reverse.map (fun d => symbolOf A (Fin.ofNat 58 d)))

/-- One pass of R168, a multiplication of `ACC` (least significant byte first) by 58 with a carry:
`u = ACC[j] * 58 + carry`, `ACC[j] <- u mod 256`, `carry <- u div 256`. Answers the bytes and the last carry. -/
def multiplyPass : Nat → List Byte → List Byte × Nat
  | carry, [] => ([], carry)
  | carry, b :: rest =>
    let p := multiplyPass ((b.toNat * 58 + carry) / 256) rest
    (BitVec.ofNat 8 ((b.toNat * 58 + carry) % 256) :: p.1, p.2)

/-- The symbols' loop of R168 over their digits: a carry left after a pass takes one new byte, or overflows. -/
def multiplyLoop (nMax : Nat) : List Byte → List Nat → Option (List Byte)
  | acc, [] => some acc
  | acc, d :: ds =>
    if (multiplyPass d acc).2 = 0 then multiplyLoop nMax (multiplyPass d acc).1 ds
    else if acc.length = nMax then none
    else multiplyLoop nMax ((multiplyPass d acc).1 ++ [BitVec.ofNat 8 (multiplyPass d acc).2]) ds

/-- What `DECODE` answers: the offending symbol, an overflow, or the payload. -/
inductive DecodeAnswer where
  | invalid (pos : Nat) (b : Byte)
  | overflow
  | payload (bytes : List Byte)
  deriving DecidableEq, Repr

/-- The reference `DECODE` datapath (R168). -/
def decodeDatapath (A : Alphabet) (nMax : Nat) (s : List Byte) : DecodeAnswer :=
  match firstInvalid A s with
  | some (i, b) => .invalid i b
  | none =>
    let z := lead s (symbolOf A 0)
    match multiplyLoop nMax [] ((s.drop z).map (fun b => (invOf A b).toNat)) with
    | none => .overflow
    | some acc =>
      if nMax < z + acc.length then .overflow else .payload (List.replicate z 0#8 ++ acc.reverse)

/-- What the scan of R121 answers: the index and value of a repeated symbol, or the finished inverse table `W`. -/
inductive ScanAnswer where
  | repeated (j : Nat) (b : Byte)
  | table (w : Vector Byte 256)
  deriving DecidableEq, Repr

/-- The scan of R121 from index `j` on, with the working table `W` so far. -/
def scanSymbols : Nat → Vector Byte 256 → List Byte → ScanAnswer
  | _, w, [] => .table w
  | j, w, b :: rest =>
    if w[b.toNat]'b.isLt = SENTINEL then scanSymbols (j + 1) (w.set b.toNat (BitVec.ofNat 8 j) b.isLt) rest
    else .repeated j b

/-- The working table before the scan (R121): all `SENTINEL`. -/
def emptyTable : Vector Byte 256 := Vector.replicate 256 SENTINEL

end Sys2Proof.Machine
end

