-- ==== Sys2Proof/Machine/HostProgram.lean ====
section
/-! DEFINITION. The assembler notation: host statements (spec/30_encoding.md R98) and the pseudo-instructions with their
expansions (R99), as the events a host and the engine cause. The host's own control (its polling loop and its tests of a
value it has read) is outside the block: `WAIT` is a number of polls that see `BUSY = 1`, the engine's completion, and
the poll that sees `BUSY = 0`; what a host does after a read is a function of the value read (notes/assumptions/11.md). -/

namespace Sys2Proof.Machine

/-- The three buffers a host statement names. -/
inductive Buffer where
  | astg
  | bbuf
  | tbuf
  deriving DecidableEq, Repr

/-- The offset of a buffer's byte 0 (R61). -/
def bufferBase : Buffer → Nat
  | .astg => astgBase
  | .bbuf => bbufBase
  | .tbuf => tbufBase

/-- `W32 reg, v`. -/
def w32 (r : Reg) (v : Word) : Event := .access (.write32 (regOffset r) v)

/-- `R32 reg`. -/
def r32 (r : Reg) : Event := .access (.read32 (regOffset r))

/-- `W8 buf[i], v`. -/
def w8 (b : Buffer) (i : Nat) (v : Byte) : Event := .access (.write8 (bufferBase b + i) v)

/-- `R8 buf[i]`. -/
def r8 (b : Buffer) (i : Nat) : Event := .access (.read8 (bufferBase b + i))

/-- `CMD c`. -/
def asmCmd (c : Instr) : Event := w32 .cmd (encode c)

/-- `WAIT`, with the number of polls made before the engine completes. -/
def asmWait (polls : Nat) : List Event := List.replicate polls (r32 .status) ++ [.complete, r32 .status]

/-- `RUN c`. -/
def asmRun (c : Instr) (polls : Nat) : List Event := asmCmd c :: asmWait polls

/-- `PUTB buf, x0 x1 ... xk-1`. -/
def asmPutb (b : Buffer) (bytes : List Byte) : List Event := bytes.zipIdx.map (fun p => w8 b p.2 p.1)

/-- `GETB buf, k`. -/
def asmGetb (b : Buffer) (k : Nat) : List Event := (List.range k).map (fun i => r8 b i)

/-- What `B58ENC`, `B58DEC` and `B58ALPHA` share: the inputs, `RUN c`, and the read `s = R32 STATUS` of its own. -/
def asmTransaction (inputs : List Event) (c : Instr) (polls : Nat) : List Event :=
  inputs ++ asmRun c polls ++ [r32 .status]

/-- `s[2] = 0`: the status the host has read shows no error. -/
def succeeded (status : Word) : Bool := !status.getLsbD 2

/-- `B58ENC A, bytes` up to and with `s = R32 STATUS`. -/
def asmB58enc (a : AlphaSel) (bytes : List Byte) (polls : Nat) : List Event :=
  asmTransaction (asmPutb .bbuf bytes ++ [w32 .blen (BitVec.ofNat 32 bytes.length)]) (.encode a) polls

/-- The rest of `B58ENC`: `status` is what `s = R32 STATUS` returned, `n` what `n = R32 TLEN` returns. -/
def asmB58encAfter (status n : Word) : List Event :=
  if succeeded status then r32 .tlen :: asmGetb .tbuf n.toNat else [r32 .errcode]

/-- `B58DEC A, text` up to and with `s = R32 STATUS`. -/
def asmB58dec (a : AlphaSel) (bytes : List Byte) (polls : Nat) : List Event :=
  asmTransaction (asmPutb .tbuf bytes ++ [w32 .tlen (BitVec.ofNat 32 bytes.length)]) (.decode a) polls

/-- The rest of `B58DEC`: `status` is what `s = R32 STATUS` returned, `n` what `n = R32 BLEN` returns. -/
def asmB58decAfter (status n : Word) : List Event :=
  if succeeded status then r32 .blen :: asmGetb .bbuf n.toNat else [r32 .errcode, r32 .errbyte, r32 .errpos]

/-- The count `B58ALPHA` writes to `ALEN`: the true count up to 255. DESIGN CHOICE: for more than 255 symbols R99 leaves
open what is written, and the model writes 255, so that `LDALPHA` fails for every count but 58
(notes/assumptions/14.md). -/
def stagedCount (symbols : List Byte) : Word := BitVec.ofNat 32 (min symbols.length 255)

/-- `B58ALPHA symbols` up to and with `s = R32 STATUS`: at most 64 symbols are staged. -/
def asmB58alpha (symbols : List Byte) (polls : Nat) : List Event :=
  asmTransaction (asmPutb .astg (symbols.take astgSize) ++ [w32 .alen (stagedCount symbols)]) .ldalpha polls

/-- What `B58ALPHA` answers after `s = R32 STATUS` returned `status`: success if and only if `s[2] = 0`. -/
def asmB58alphaAfter (status : Word) : Bool := succeeded status

end Sys2Proof.Machine
end

