-- ==== Sys2Proof/Safety.lean ====
section
/-! DEFINITION. What the claims are stated in: the invariant of the machine, its parts, and relations between states. -/

namespace Sys2Proof.Machine

/-- The legal combinations of (`BUSY`, `DONE`, `ERR`) (spec/10_state.md R33). -/
def StatusLegal (s : State) : Prop :=
  (s.busy, s.done, s.err) ∈ [(false, false, false), (true, false, false), (false, true, false), (false, true, true)]

/-- The error report agrees with `ERR` (R36, R38 to R40): no error, no report; and no code is one of the reserved ones
(spec/60_exceptions.md R191, R194). -/
def ReportConsistent (s : State) : Prop :=
  (s.err = true ↔ s.errcode ≠ 0#8) ∧ (s.err = false → s.errbyte = 0#8 ∧ s.errpos = 0#32) ∧
    s.errcode ∈ [0#8, 1#8, 2#8, 5#8, 6#8, 7#8, 8#8, 9#8]

/-- While `AVALID = 1` the custom tables hold 58 distinct symbols and their inverse (R37, R46, R47). -/
def CustomConsistent (s : State) : Prop := s.avalid = true → (customAlphabet s).wf

/-- Every listed byte is a byte of one of the three buffers (spec/20_memory.md R61, R63). -/
def CellsInBuffers (s : State) : Prop := ∀ c ∈ s.mem, isBufferByte s.cfg c.1 = true

/-- Nothing is latched until a command is issued: with `BUSY = DONE = 0`, `CMD` reads 0 (R32, R33). -/
def IdleCommandZero (s : State) : Prop := s.busy = false → s.done = false → s.lcmd = 0#32

/-- The invariant of the machine. -/
structure Inv (s : State) : Prop where
  config : s.cfg.wf
  status : StatusLegal s
  report : ReportConsistent s
  custom : CustomConsistent s
  memory : Memory.wf s.mem
  cells : CellsInBuffers s
  idle : IdleCommandZero s

/-- The host addresses the block only (R62): every pending access is inside the window. -/
def AccessesInWindow (s : State) : Prop := ∀ a, Event.access a ∈ s.pending → a.wf = true

/-- The run of a host program has ended (spec/70_reset_and_hazards.md R243): the host has made its last access, and the
engine is idle. -/
def RunEnded (s : State) : Prop := s.busy = false ∧ ∀ a, Event.access a ∉ s.pending

/-- Two states agree on everything the spec names, less the error report and the flags `BUSY`, `DONE`, `ERR`
(spec/60_exceptions.md R200: what a failing command leaves). -/
structure SameButReport (s t : State) : Prop where
  cfg : t.cfg = s.cfg
  lcmd : t.lcmd = s.lcmd
  blen : t.blen = s.blen
  tlen : t.tlen = s.tlen
  alen : t.alen = s.alen
  res : t.res = s.res
  mem : t.mem = s.mem
  ramEpoch : t.ramEpoch = s.ramEpoch
  pending : t.pending = s.pending
  replies : t.replies = s.replies

/-- The custom slot is unchanged: `AVALID`, `CSYM`, `CINV`. -/
structure SameCustom (s t : State) : Prop where
  avalid : t.avalid = s.avalid
  csym : t.csym = s.csym
  cinv : t.cinv = s.cinv

/-- `t` is what a command leaves that completed without an error of its own: `BUSY = 0`, `DONE = 1`, `ERR = 0`. -/
structure CompletedWell (t : State) : Prop where
  busy : t.busy = false
  done : t.done = true
  err : t.err = false

/-- `t` is what a command leaves that raised the error with this code, `ERRBYTE` and `ERRPOS` (R200). -/
structure CompletedWithError (code byte : Byte) (pos : Word) (t : State) : Prop where
  busy : t.busy = false
  done : t.done = true
  err : t.err = true
  errcode : t.errcode = code
  errbyte : t.errbyte = byte
  errpos : t.errpos = pos

/-- The error report is unchanged by a command that does not raise. -/
structure SameReport (s t : State) : Prop where
  errcode : t.errcode = s.errcode
  errbyte : t.errbyte = s.errbyte
  errpos : t.errpos = s.errpos

/-- Two states agree on the inputs that command `i` names, by the "reads" column of R50 (spec/10_state.md): the length
register, the bytes under it, the selected alphabet. `cfg` stands for the capacities. -/
def SameInputs (i : Instr) (s1 s2 : State) : Prop :=
  match i with
  | .nop => True
  | .encode a => s1.cfg = s2.cfg ∧ s1.blen = s2.blen ∧ payload s1 = payload s2 ∧
      selectAlphabet a s1 = selectAlphabet a s2
  | .decode a => s1.cfg = s2.cfg ∧ s1.tlen = s2.tlen ∧ text s1 = text s2 ∧
      selectAlphabet a s1 = selectAlphabet a s2
  | .ldalpha => s1.alen = s2.alen ∧ staged s1 = staged s2
  | .digitof a _ => selectAlphabet a s1 = selectAlphabet a s2
  | .symbolof a _ => selectAlphabet a s1 = selectAlphabet a s2
  | .srst => True

/-- Two states agree on the outputs of command `i`, by the "writes on success" column of R50. -/
def SameOutputs (i : Instr) (t1 t2 : State) : Prop :=
  match i with
  | .nop => True
  | .encode _ => t1.tlen = t2.tlen ∧ text t1 = text t2
  | .decode _ => t1.blen = t2.blen ∧ payload t1 = payload t2
  | .ldalpha => t1.avalid = t2.avalid ∧ t1.csym = t2.csym ∧ t1.cinv = t2.cinv
  | .digitof _ _ => t1.res = t2.res
  | .symbolof _ _ => t1.res = t2.res
  | .srst => t1.lcmd = t2.lcmd ∧ t1.blen = t2.blen ∧ t1.tlen = t2.tlen ∧ t1.alen = t2.alen ∧ t1.res = t2.res ∧
      t1.avalid = t2.avalid ∧ t1.errcode = t2.errcode ∧ t1.errbyte = t2.errbyte ∧ t1.errpos = t2.errpos

/-- The eleven register offsets (R28). -/
def REGISTER_OFFSETS : List Nat := [0x00, 0x04, 0x08, 0x0C, 0x10, 0x14, 0x18, 0x1C, 0x20, 0x24, 0x28]

/-- The value the host reads from each register offset while the engine is idle (R28), as the fields' numbers. -/
def idleRegisterValue (s : State) (off : Nat) : Option Nat :=
  if off = 0x00 then some 0x42353801
  else if off = 0x04 then some (s.cfg.nMax.toNat + s.cfg.tMax.toNat * 65536)
  else if off = 0x08 then some s.lcmd.toNat
  else if off = 0x0C then some (s.busy.toNat + s.done.toNat * 2 + s.err.toNat * 4 + s.avalid.toNat * 8)
  else if off = 0x10 then some s.errcode.toNat
  else if off = 0x14 then some s.errbyte.toNat
  else if off = 0x18 then some s.errpos.toNat
  else if off = 0x1C then some s.blen.toNat
  else if off = 0x20 then some s.tlen.toNat
  else if off = 0x24 then some s.alen.toNat
  else if off = 0x28 then some s.res.toNat
  else none

end Sys2Proof.Machine
end

