-- ==== Sys2Proof/Certificates/Slice0/Obligations.lean ====
section
/-! DEFINITION. The statements for the provers, in the order of OBLIGATIONS.json. Each docstring cites the rules of
spec/ it rests on. What comes next is the head of `pending`, the model's own schedule of the three agents (R9;
notes/assumptions/6.md); `replies` and `draws` are the model's own too (notes/assumptions/7.md, 4.md), and so are the
clauses that say what becomes of them. No statement rests on the value of a free value. -/

open Sys2Proof Sys2Proof.Machine

/-! ## Encoding -/

/-- R91, R92, R95, tier 3: no bit of an encoding is dropped; decoding the word of a command gives the command back,
with every operand at every value. -/
def Obligations.DecodeOfEncodeIsTheCommand : Prop :=
  ∀ i : Instr, i.wf = true → dec (encode i) = .instr i

/-- R92, R95: `dec(w)` is a command exactly when `w` matches that command's row under its mask, and then the word is the
command's own encoding. -/
def Obligations.WordSelectsARowExactlyByMaskAndMatch : Prop :=
  (∀ (w : Word) (i : Instr), dec w = .instr i → w &&& tableMask i = tableMatch i ∧ encode i = w) ∧
  (∀ (w : Word) (i : Instr), w &&& tableMask i = tableMatch i →
    ∃ j : Instr, dec w = .instr j ∧ tableMatch j = tableMatch i ∧ tableMask j = tableMask i)

/-- R96: a word is illegal exactly when its opcode is in 0x07..0xFF, a reserved field is not 0, or a field its format
does not use is not 0. -/
def Obligations.IllegalWordsAreExactlyThoseOfR96 : Prop :=
  ∀ w : Word, (∃ r, dec w = .illegal r) ↔
    (0x07 ≤ w.toNat % 256 ∨ w.toNat / 512 % 128 ≠ 0 ∨ w.toNat / 16777216 ≠ 0 ∨
      (w.toNat % 256 ∈ [0x00, 0x03, 0x06] ∧ (w.toNat / 256 % 2 ≠ 0 ∨ w.toNat / 65536 % 256 ≠ 0)) ∨
      (w.toNat % 256 ∈ [0x01, 0x02] ∧ w.toNat / 65536 % 256 ≠ 0))

/-- R98, a sanity statement: words written out from the spec's notation decode to their commands. -/
def Obligations.WrittenOutWordsDecode : Prop :=
  dec 0x00000000#32 = .instr .nop ∧ dec 0x00000101#32 = .instr (.encode .cust) ∧
  dec 0x00000002#32 = .instr (.decode .rom) ∧ dec 0x00000003#32 = .instr .ldalpha ∧
  dec 0x007A0004#32 = .instr (.digitof .rom 0x7A#8) ∧ dec 0x00390105#32 = .instr (.symbolof .cust 0x39#8) ∧
  dec 0x00000006#32 = .instr .srst

/-! ## One step -/

/-- R182, tier 1: in a busy state whose next event is the engine's, the step is the latched command's meaning, in the
state from which that event has been taken. -/
def Obligations.StepRunsTheDecodedCommand : Prop :=
  ∀ (s : State) (i : Instr), s.busy = true → (s.pending = [] ∨ s.pending.head? = some .complete) →
    dec s.lcmd = .instr i → i.wf = true → step s = exec i { s with pending := s.pending.tail }

/-- R195, R96: an illegal word completes with `IllegalCommand`, code 5, and no other effect. -/
def Obligations.IllegalWordCompletesWithIllegalCommand : Prop :=
  ∀ (s : State) (r : IllegalReason), s.busy = true → (s.pending = [] ∨ s.pending.head? = some .complete) →
    dec s.lcmd = .illegal r →
    step s = .next { s with
      pending := s.pending.tail, busy := false, done := true, err := true,
      errcode := 5#8, errbyte := 0#8, errpos := 0#32 }

/-- R181: issue, by a write to offset 0x08 while idle, legal word or not; the same write while busy is ignored. -/
def Obligations.IssueLatchesTheWordAndClearsTheReport : Prop :=
  ∀ (s : State) (w : Word) (rest : List Event), s.pending = .access (.write32 0x08 w) :: rest →
    (s.busy = false → step s = .next { s with
      pending := rest, lcmd := w, busy := true, done := false, err := false,
      errcode := 0#8, errbyte := 0#8, errpos := 0#32 }) ∧
    (s.busy = true → step s = .next { s with pending := rest })

/-- R182, R220: the engine takes no step while `BUSY = 0`; an idle block with nothing pending does nothing. -/
def Obligations.IdleEngineDoesNothing : Prop :=
  ∀ s : State, s.busy = false →
    (s.pending = [] → step s = .next s) ∧
    (∀ rest, s.pending = .complete :: rest → step s = .next { s with pending := rest })

/-- R182: whatever the state, every command's completion answers a next state with `BUSY = 0`; `DONE = 1` for all but
`SRST`, which leaves `DONE = ERR = 0` (R35, R186); a command leaves the parameters, the pending events and the replies
alone. -/
def Obligations.EveryCommandCompletes : Prop :=
  ∀ (i : Instr) (s : State), ∃ t, exec i s = .next t ∧ t.busy = false ∧
    (i ≠ .srst → t.done = true ∧ t.lcmd = s.lcmd) ∧ (i = .srst → t.done = false ∧ t.err = false ∧ t.lcmd = 0#32) ∧
    t.cfg = s.cfg ∧ t.ramEpoch = s.ramEpoch ∧ t.pending = s.pending ∧ t.replies = s.replies ∧ t.alen = (if i = .srst then 0#8 else s.alen)

/-- R61, R62 and notes/assumptions/8.md (the model's choice): the only thing that stops the machine is an access outside
the block's window; nothing in the block is ever stuck (U23). -/
def Obligations.OnlyAnAccessOutsideTheWindowStops : Prop :=
  (∀ s : State, AccessesInWindow s → ∃ t, step s = .next t ∧ AccessesInWindow t) ∧
  (∀ (s : State) (a : HostAccess) (rest : List Event), s.pending = .access a :: rest → 0x30000 ≤ a.off →
    step s = .fault (.outsideWindow a.off))

/-! ## The commands -/

/-- R184: `NOP` changes the flags and nothing else. -/
def Obligations.NopSetsDoneAndChangesNothingElse : Prop :=
  ∀ s : State, exec .nop s = .next { s with busy := false, done := true, err := false }

/-- R184, the net effect of issuing and completing a `NOP`: the error report of the last command is cleared, `CMD` reads
0, `AVALID` and everything else is unchanged. -/
def Obligations.NopIssuedClearsTheErrorReport : Prop :=
  ∀ (s : State) (rest : List Event), s.busy = false →
    s.pending = .access (.write32 0x08 0x00000000#32) :: .complete :: rest →
    Host.Core.run Sys2Proof.core 2 s = .next { s with
      pending := rest, lcmd := 0#32, busy := false, done := true, err := false,
      errcode := 0#8, errbyte := 0#8, errpos := 0#32 }

/-- R186: `SRST` returns every register and flag to its reset value and keeps the buffers; `CSYM` and `CINV` are
unspecified afterwards, so nothing is said of them. -/
def Obligations.SrstClearsRegistersAndKeepsBuffers : Prop :=
  ∀ s : State, ∃ t, exec .srst s = .next t ∧
    t.lcmd = 0#32 ∧ t.busy = false ∧ t.done = false ∧ t.err = false ∧ t.avalid = false ∧
    t.errcode = 0#8 ∧ t.errbyte = 0#8 ∧ t.errpos = 0#32 ∧
    t.blen = 0#16 ∧ t.tlen = 0#16 ∧ t.alen = 0#8 ∧ t.res = 0#8 ∧
    (∀ off, readByte t off = readByte s off) ∧ t.mem = s.mem ∧ t.cfg = s.cfg ∧ t.ramEpoch = s.ramEpoch ∧
    t.pending = s.pending ∧ t.replies = s.replies

/-- R125: `RES` becomes the digit of the byte, or 0xFF for a byte that is no symbol, without an error, and nothing else
changes but the flags. -/
def Obligations.DigitofGivesTheDigitOrSentinel : Prop :=
  ∀ (a : AlphaSel) (b : Byte) (s : State) (A : Alphabet), selectAlphabet a s = some A → A.wf →
    ∃ r : Byte, exec (.digitof a b) s = .next { s with res := r, busy := false, done := true, err := false } ∧
      (∀ d : Digit, symbolOf A d = b → r.toNat = d.val) ∧
      ((∀ d : Digit, symbolOf A d ≠ b) → r = 0xFF#8)

/-- R125, in every state: `RES <- inv(IMM8)`, the entry of the selected inverse table. -/
def Obligations.DigitofReadsTheInverseTable : Prop :=
  ∀ (a : AlphaSel) (b : Byte) (s : State) (A : Alphabet), selectAlphabet a s = some A →
    exec (.digitof a b) s = .next { s with res := A.inv[b.toNat]'b.isLt, busy := false, done := true, err := false }

/-- R126: `RES <- sym(IMM8)` for a digit 0..57; `DigitRange`, code 9, with `ERRBYTE = IMM8` for 58..255. -/
def Obligations.SymbolofReadsTheSymbolTableOrRaisesDigitRange : Prop :=
  ∀ (a : AlphaSel) (d : Byte) (s : State) (A : Alphabet), selectAlphabet a s = some A →
    (∀ h : d.toNat < 58,
      exec (.symbolof a d) s = .next { s with res := A.sym[d.toNat], busy := false, done := true, err := false }) ∧
    (58 ≤ d.toNat → exec (.symbolof a d) s = .next { s with
      busy := false, done := true, err := true, errcode := 9#8, errbyte := d, errpos := 0#32 })

/-- R116: which tables a command with `ASEL` reads; `ASEL = 1` while `AVALID = 0` fails with `AlphabetNotLoaded`, code
8, whatever the other operands, for each of the four commands with an `ASEL` field, and changes nothing but the report
and the flags. -/
def Obligations.SelectedAlphabetIsRomOrLoadedCustomOrAnError : Prop :=
  ∀ s : State, selectAlphabet .rom s = some { sym := s.cfg.romAlpha, inv := invTable s.cfg.romAlpha } ∧
    (s.avalid = true → selectAlphabet .cust s = some { sym := s.csym, inv := s.cinv }) ∧
    (s.avalid = false → ∀ i : Instr,
      (i = .encode .cust ∨ i = .decode .cust ∨ (∃ b, i = .digitof .cust b) ∨ (∃ d, i = .symbolof .cust d)) →
      exec i s = .next { s with
        busy := false, done := true, err := true, errcode := 8#8, errbyte := 0#8, errpos := 0#32 })

/-- R120, success: `ALEN = 58` and 58 distinct staged bytes. `CSYM` is the staged bytes, `CINV` their inverse table,
`AVALID = 1`; `ASTG`, `ALEN` and everything else are unchanged but the flags. -/
def Obligations.LdalphaLoadsFiftyEightDistinctSymbols : Prop :=
  ∀ s : State, s.alen = 58#8 →
    (∀ i j, i < j → j < 58 → readByte s (0x40 + i) ≠ readByte s (0x40 + j)) →
    ∃ t, exec .ldalpha s = .next t ∧ CompletedWell t ∧ SameReport s t ∧ SameButReport s t ∧ t.draws = s.draws ∧
      t.avalid = true ∧
      (∀ d : Digit, t.csym[d.val] = readByte s (0x40 + d.val)) ∧
      (∀ (b : Byte) (d : Digit), readByte s (0x40 + d.val) = b → (t.cinv[b.toNat]'b.isLt).toNat = d.val) ∧
      (∀ b : Byte, (∀ d : Digit, readByte s (0x40 + d.val) ≠ b) → t.cinv[b.toNat]'b.isLt = 0xFF#8)

/-- R120, R192, the count: `ALEN != 58` fails with `AlphabetError(0, ALEN)` and unloads the custom alphabet. -/
def Obligations.LdalphaRejectsAWrongCount : Prop :=
  ∀ s : State, s.alen ≠ 58#8 →
    ∃ t, exec .ldalpha s = .next t ∧ CompletedWithError 1#8 0#8 (s.alen.setWidth 32) t ∧ t.avalid = false ∧
      SameButReport s t

/-- R120, R192, a duplicate: the one with the least later index `j` is reported, and the custom alphabet is unloaded. -/
def Obligations.LdalphaRejectsTheFirstDuplicate : Prop :=
  ∀ (s : State) (i j : Nat), s.alen = 58#8 → i < j → j < 58 →
    readByte s (0x40 + i) = readByte s (0x40 + j) →
    (∀ k l, k < l → l < j → readByte s (0x40 + k) ≠ readByte s (0x40 + l)) →
    ∃ t, exec .ldalpha s = .next t ∧ CompletedWithError 1#8 (readByte s (0x40 + j)) (BitVec.ofNat 32 j) t ∧
      t.avalid = false ∧ SameButReport s t

/-- R140, success: `TBUF[0..|e|)` and `TLEN` become the encoding of `BBUF[0..BLEN)`; every other byte of memory and
every register but the flags is unchanged. -/
def Obligations.EncodeWritesTheTextAndNothingElse : Prop :=
  ∀ (a : AlphaSel) (s : State) (A : Alphabet) (e : List Byte), selectAlphabet a s = some A →
    e = encText A ((List.range s.blen.toNat).map (fun i => readByte s (0x10000 + i))) →
    s.blen.toNat ≤ s.cfg.nMax.toNat → e.length ≤ s.cfg.tMax.toNat →
    ∃ t, exec (.encode a) s = .next t ∧ CompletedWell t ∧ SameReport s t ∧ SameCustom s t ∧
      t.tlen.toNat = e.length ∧
      (∀ (j : Nat) (h : j < e.length), readByte t (0x20000 + j) = e[j]) ∧
      (∀ off, ¬(0x20000 ≤ off ∧ off < 0x20000 + e.length) → readByte t off = readByte s off) ∧
      t.cfg = s.cfg ∧ t.lcmd = s.lcmd ∧ t.blen = s.blen ∧ t.alen = s.alen ∧ t.res = s.res ∧
      t.ramEpoch = s.ramEpoch ∧ t.draws = s.draws ∧ t.pending = s.pending ∧ t.replies = s.replies

/-- R140, R196, R197: `BadLength(0, BLEN)` for `BLEN > N_MAX`, then `Overflow(0, 0)` for a text longer than `T_MAX`, and
nothing else changes. -/
def Obligations.EncodeFailsWithBadLengthOrOverflow : Prop :=
  ∀ (a : AlphaSel) (s : State) (A : Alphabet), selectAlphabet a s = some A →
    (s.cfg.nMax.toNat < s.blen.toNat → exec (.encode a) s = .next { s with
      busy := false, done := true, err := true, errcode := 6#8, errbyte := 0#8, errpos := s.blen.setWidth 32 }) ∧
    (s.blen.toNat ≤ s.cfg.nMax.toNat → s.cfg.tMax.toNat < (encText A (payload s)).length →
      exec (.encode a) s = .next { s with
        busy := false, done := true, err := true, errcode := 7#8, errbyte := 0#8, errpos := 0#32 })

/-- R160, success: `BBUF[0..|r|)` and `BLEN` become the payload the text denotes; every other byte of memory and every
register but the flags is unchanged. -/
def Obligations.DecodeWritesThePayloadAndNothingElse : Prop :=
  ∀ (a : AlphaSel) (s : State) (A : Alphabet) (x r : List Byte), selectAlphabet a s = some A →
    x = (List.range s.tlen.toNat).map (fun i => readByte s (0x20000 + i)) →
    s.tlen.toNat ≤ s.cfg.tMax.toNat → (∀ b ∈ x, A.inv[b.toNat]'b.isLt ≠ 0xFF#8) →
    r = decText A x → r.length ≤ s.cfg.nMax.toNat →
    ∃ t, exec (.decode a) s = .next t ∧ CompletedWell t ∧ SameReport s t ∧ SameCustom s t ∧
      t.blen.toNat = r.length ∧
      (∀ (j : Nat) (h : j < r.length), readByte t (0x10000 + j) = r[j]) ∧
      (∀ off, ¬(0x10000 ≤ off ∧ off < 0x10000 + r.length) → readByte t off = readByte s off) ∧
      t.cfg = s.cfg ∧ t.lcmd = s.lcmd ∧ t.tlen = s.tlen ∧ t.alen = s.alen ∧ t.res = s.res ∧
      t.ramEpoch = s.ramEpoch ∧ t.draws = s.draws ∧ t.pending = s.pending ∧ t.replies = s.replies

/-- R164, R193: a text with an invalid symbol fails with `InvalidCharacter`, code 2, carrying the byte and the position
of the first such symbol, before any overflow is considered, and nothing else changes. -/
def Obligations.DecodeReportsTheFirstInvalidSymbol : Prop :=
  ∀ (a : AlphaSel) (s : State) (A : Alphabet) (i : Nat), selectAlphabet a s = some A →
    s.tlen.toNat ≤ s.cfg.tMax.toNat → i < s.tlen.toNat →
    invOf A (readByte s (0x20000 + i)) = 0xFF#8 →
    (∀ j < i, invOf A (readByte s (0x20000 + j)) ≠ 0xFF#8) →
    exec (.decode a) s = .next { s with
      busy := false, done := true, err := true, errcode := 2#8, errbyte := readByte s (0x20000 + i),
      errpos := BitVec.ofNat 32 i }

/-- R160, R196, R197: `BadLength(0, TLEN)` before any symbol is looked at, and `Overflow(0, 0)` for a valid text whose
payload is longer than `N_MAX`; nothing else changes. -/
def Obligations.DecodeFailsWithBadLengthOrOverflow : Prop :=
  ∀ (a : AlphaSel) (s : State) (A : Alphabet), selectAlphabet a s = some A →
    (s.cfg.tMax.toNat < s.tlen.toNat → exec (.decode a) s = .next { s with
      busy := false, done := true, err := true, errcode := 6#8, errbyte := 0#8, errpos := s.tlen.setWidth 32 }) ∧
    (s.tlen.toNat ≤ s.cfg.tMax.toNat → (∀ b ∈ text s, invOf A b ≠ 0xFF#8) →
      s.cfg.nMax.toNat < (decText A (text s)).length →
      exec (.decode a) s = .next { s with
        busy := false, done := true, err := true, errcode := 7#8, errbyte := 0#8, errpos := 0#32 })

/-- R200, R201: a command that completes with `ERR = 1` has changed nothing but the error report and the flags; only
`AlphabetError`, code 1, also unloads the custom alphabet. -/
def Obligations.FailingCommandChangesOnlyTheReport : Prop :=
  ∀ (i : Instr) (s t : State), exec i s = .next t → t.err = true →
    t.busy = false ∧ t.done = true ∧ t.errcode ∈ [1#8, 2#8, 6#8, 7#8, 8#8, 9#8] ∧ SameButReport s t ∧
    (t.errcode ≠ 1#8 → SameCustom s t ∧ t.draws = s.draws) ∧
    (t.errcode = 1#8 → i = .ldalpha ∧ t.avalid = false)

/-! ## The host port -/

/-- R237: while busy every host write is ignored. -/
def Obligations.WritesWhileBusyAreIgnored : Prop :=
  ∀ (s : State) (a : HostAccess) (rest : List Event), s.busy = true → a.isWrite = true → a.wf = true →
    s.pending = .access a :: rest → step s = .next { s with pending := rest }

/-- R238: reads while busy. `ID`, `CAP`, `CMD` and `STATUS` read true; any other register and any buffer byte reads an
unspecified value; an inert access reads 0; no read changes the block. In a legal state `STATUS` reads 0x1 or 0x9. -/
def Obligations.ReadsWhileBusyAreTrueOrUnspecified : Prop :=
  ∀ (s : State) (off : Nat) (rest : List Event), s.busy = true → off < 0x30000 →
    (∀ v, s.pending = .access (.read32 off) :: rest → off ∈ [0x00, 0x04, 0x08, 0x0C] →
      idleRegisterValue s off = some v →
      step s = .next { s with pending := rest, replies := .word (BitVec.ofNat 32 v) :: s.replies }) ∧
    (s.pending = .access (.read32 off) :: rest → off ∈ [0x10, 0x14, 0x18, 0x1C, 0x20, 0x24, 0x28] →
      ∃ v, step s = .next { s with pending := rest, replies := .word v :: s.replies, draws := s.draws + 1 }) ∧
    (s.pending = .access (.read8 off) :: rest → isBufferByte s.cfg off = true →
      ∃ v, step s = .next { s with pending := rest, replies := .byte v :: s.replies, draws := s.draws + 1 }) ∧
    (s.pending = .access (.read32 off) :: rest → off ∉ REGISTER_OFFSETS →
      step s = .next { s with pending := rest, replies := .word 0#32 :: s.replies }) ∧
    (s.pending = .access (.read8 off) :: rest → isBufferByte s.cfg off = false →
      step s = .next { s with pending := rest, replies := .byte 0#8 :: s.replies }) ∧
    (StatusLegal s → off = 0x0C → idleRegisterValue s off = some 0x1 ∨ idleRegisterValue s off = some 0x9)

/-- R64, R67: an access that is no valid target is inert, busy or not: a write changes nothing, a read returns 0. -/
def Obligations.InvalidAccessesAreInert : Prop :=
  ∀ (s : State) (off : Nat) (rest : List Event), off < 0x30000 →
    (off ∉ REGISTER_OFFSETS →
      (s.pending = .access (.read32 off) :: rest →
        step s = .next { s with pending := rest, replies := .word 0#32 :: s.replies }) ∧
      (∀ v, s.pending = .access (.write32 off v) :: rest → step s = .next { s with pending := rest })) ∧
    (¬((0x40 ≤ off ∧ off < 0x80) ∨ (0x10000 ≤ off ∧ off < 0x10000 + s.cfg.nMax.toNat) ∨
        (0x20000 ≤ off ∧ off < 0x20000 + s.cfg.tMax.toNat)) →
      (s.pending = .access (.read8 off) :: rest →
        step s = .next { s with pending := rest, replies := .byte 0#8 :: s.replies }) ∧
      (∀ v, s.pending = .access (.write8 off v) :: rest → step s = .next { s with pending := rest }))

/-- R28, R63, R22: a 32-bit read of a register while idle returns its fields, reserved bits 0, and changes nothing. -/
def Obligations.IdleRegisterReadReturnsItsFields : Prop :=
  ∀ (s : State) (off v : Nat) (rest : List Event), s.busy = false →
    s.pending = .access (.read32 off) :: rest → idleRegisterValue s off = some v →
    v < 2 ^ 32 ∧ step s = .next { s with pending := rest, replies := .word (BitVec.ofNat 32 v) :: s.replies }

/-- R22, R24 to R26, R63: a write to a length register while idle stores the bits of its field, whatever the value; a
write to a read-only register changes nothing. -/
def Obligations.IdleRegisterWritesStoreFieldsOrAreIgnored : Prop :=
  ∀ (s : State) (v : Word) (rest : List Event), s.busy = false →
    (s.pending = .access (.write32 0x1C v) :: rest →
      ∃ n : Half, n.toNat = v.toNat % 65536 ∧ step s = .next { s with pending := rest, blen := n }) ∧
    (s.pending = .access (.write32 0x20 v) :: rest →
      ∃ n : Half, n.toNat = v.toNat % 65536 ∧ step s = .next { s with pending := rest, tlen := n }) ∧
    (s.pending = .access (.write32 0x24 v) :: rest →
      ∃ n : Byte, n.toNat = v.toNat % 256 ∧ step s = .next { s with pending := rest, alen := n }) ∧
    (∀ off ∈ [0x00, 0x04, 0x0C, 0x10, 0x14, 0x18, 0x28], s.pending = .access (.write32 off v) :: rest →
      step s = .next { s with pending := rest })

/-- R63, R61: a buffer byte written while idle reads back, every other byte keeps its value, and nothing else changes;
a read returns the byte and changes nothing. -/
def Obligations.BufferByteWriteThenRead : Prop :=
  ∀ (s : State) (off : Nat) (v : Byte) (rest : List Event), s.busy = false →
    ((0x40 ≤ off ∧ off < 0x80) ∨ (0x10000 ≤ off ∧ off < 0x10000 + s.cfg.nMax.toNat) ∨
      (0x20000 ≤ off ∧ off < 0x20000 + s.cfg.tMax.toNat)) →
    (s.pending = .access (.write8 off v) :: rest →
      ∃ t, step s = .next t ∧ readByte t off = v ∧ (∀ x, x ≠ off → readByte t x = readByte s x) ∧
        t = { s with mem := t.mem, pending := rest }) ∧
    (s.pending = .access (.read8 off) :: rest →
      step s = .next { s with pending := rest, replies := .byte (readByte s off) :: s.replies })

/-! ## Reset -/

/-- R49, R230: the state after hardware reset; the contents of the buffers and of the custom tables are not said. -/
def Obligations.ResetStateHasTheSpecifiedValues : Prop :=
  State.reset.lcmd = 0#32 ∧ State.reset.busy = false ∧ State.reset.done = false ∧ State.reset.err = false ∧
  State.reset.avalid = false ∧ State.reset.errcode = 0#8 ∧ State.reset.errbyte = 0#8 ∧ State.reset.errpos = 0#32 ∧
  State.reset.blen = 0#16 ∧ State.reset.tlen = 0#16 ∧ State.reset.alen = 0#8 ∧ State.reset.res = 0#8 ∧
  readReg .id State.reset = 0x42353801#32 ∧ readReg .cap State.reset = 0x00580040#32

/-- R230, R232: hardware reset in any state, busy or not, establishes the reset values; a command in progress is
abandoned, and until another is issued no `Complete` of it happens. -/
def Obligations.HardwareResetAbandonsTheCommand : Prop :=
  ∀ (s : State) (rest : List Event), s.pending = .hardReset :: rest →
    ∃ t, step s = .next t ∧ t.pending = rest ∧ t.cfg = s.cfg ∧ t.replies = s.replies ∧
      t.lcmd = 0#32 ∧ t.busy = false ∧ t.done = false ∧ t.err = false ∧ t.avalid = false ∧
      t.errcode = 0#8 ∧ t.errbyte = 0#8 ∧ t.errpos = 0#32 ∧
      t.blen = 0#16 ∧ t.tlen = 0#16 ∧ t.alen = 0#8 ∧ t.res = 0#8 ∧
      (∀ more, rest = .complete :: more → step t = .next { t with pending := more })

/-! ## The whole machine -/

/-- R33, R36, R37, R191, tier 3: the invariant is kept by every step, from every state that meets it: legal status
combinations, a report that agrees with `ERR`, custom tables that are inverse to each other while `AVALID = 1`, memory
in its canonical form and inside the buffers, `CMD = 0` while nothing has been issued. -/
def Obligations.EveryStepKeepsTheInvariant : Prop :=
  ∀ s t : State, Inv s → step s = .next t → Inv t

/-- R49: the invariant holds right after reset. -/
def Obligations.ResetMeetsTheInvariant : Prop := Inv State.reset

/-- R117, R37: the ROM tables and the capacities never change, and `CSYM`, `CINV`, `AVALID` change only at the completion
of `LDALPHA` or `SRST` and at hardware reset. -/
def Obligations.AlphabetsChangeOnlyByLdalphaSrstOrReset : Prop :=
  ∀ s t : State, step s = .next t → t.cfg = s.cfg ∧
    (¬SameCustom s t → nextEvent s = .hardReset ∨
      (s.busy = true ∧ nextEvent s = .complete ∧ (dec s.lcmd = .instr .ldalpha ∨ dec s.lcmd = .instr .srst)))

/-- R32, R34: `BUSY` is set only by an accepted write to `CMD`, which latches the word, and cleared only by a completion
or hardware reset. `CMD` changes, from any state to any state, only by a write to it accepted while idle, which it then
holds, by the completion of `SRST`, or by hardware reset, which leave it 0. -/
def Obligations.BusyAndCommandChangeOnlyByIssueCompletionOrReset : Prop :=
  ∀ s t : State, step s = .next t →
    (s.busy = false → t.busy = true → ∃ w, nextEvent s = .access (.write32 0x08 w) ∧ t.lcmd = w) ∧
    (s.busy = true → t.busy = false → nextEvent s = .complete ∨ nextEvent s = .hardReset) ∧
    (s.busy = true → t.busy = true → t.lcmd = s.lcmd) ∧
    (t.lcmd ≠ s.lcmd →
      (s.busy = false ∧ ∃ w, nextEvent s = .access (.write32 0x08 w) ∧ t.lcmd = w) ∨
      (s.busy = true ∧ nextEvent s = .complete ∧ dec s.lcmd = .instr .srst ∧ t.lcmd = 0#32) ∨
      (nextEvent s = .hardReset ∧ t.lcmd = 0#32))

/-- R71 (d), R237: however many accesses the host makes between issue and completion, the block's state at completion is
its state at issue; only what the host has read, and the free values drawn for it, differ. -/
def Obligations.CommandSeesTheInputsOfItsIssue : Prop :=
  ∀ (as : List HostAccess) (s : State) (rest : List Event), s.busy = true → (∀ a ∈ as, a.wf = true) →
    s.pending = as.map Event.access ++ rest →
    ∃ n rs, Host.Core.run Sys2Proof.core as.length s =
      .next { s with pending := rest, draws := s.draws + n, replies := rs ++ s.replies }

/-- R240 under the schedule of notes/assumptions/6.md (the model's choice), tier 3: a busy engine completes. From every
busy state a finite number of steps, at most one for each pending event, leads to a state in which the same command is
still being performed and its `Complete` is the next step, unless hardware reset is; and that step leaves the block
idle. -/
def Obligations.BusyEngineCompletes : Prop :=
  ∀ s : State, AccessesInWindow s → s.busy = true →
    ∃ (n : Nat) (u t : State), n ≤ s.pending.length ∧ Host.Core.run Sys2Proof.core n s = .next u ∧ u.busy = true ∧
      u.lcmd = s.lcmd ∧ (nextEvent u = .complete ∨ nextEvent u = .hardReset) ∧
      step u = .next t ∧ t.busy = false ∧ (nextEvent u = .complete → complete (takeEvent u) = .next t)

/-- R4, tier 3: purity. Two states that agree on what a command names as its inputs, whatever else they hold, give the
same verdict: both fail with the same report, or both succeed with the same outputs. -/
def Obligations.ResultDependsOnlyOnNamedInputs : Prop :=
  ∀ (i : Instr) (s1 s2 t1 t2 : State), SameInputs i s1 s2 → exec i s1 = .next t1 → exec i s2 = .next t2 →
    t1.err = t2.err ∧
    (t1.err = true → t1.errcode = t2.errcode ∧ t1.errbyte = t2.errbyte ∧ t1.errpos = t2.errpos) ∧
    (t1.err = false → SameOutputs i t1 t2)

/-! ## The numerals (spec/00_scope.md section 4) -/

/-- R10: `val256` is the base-256 big-endian value. -/
def Obligations.Val256IsTheBigEndianSum : Prop :=
  ∀ s : List Byte, val256 s = ((List.range s.length).map (fun i => (s.getD i 0#8).toNat * 256 ^ (s.length - 1 - i))).sum

/-- R11: the recursion of `digits58`, its leading digit, and its length, the least `k` with `58^k > V`. -/
def Obligations.Digits58IsTheBase58Numeral : Prop :=
  digits58 0 = [] ∧
  ∀ v : Nat, 0 < v →
    (digits58 v).map Fin.val = (digits58 (v / 58)).map Fin.val ++ [v % 58] ∧
    (∃ d ds, digits58 v = d :: ds ∧ d ≠ 0) ∧
    v < 58 ^ (digits58 v).length ∧ (∀ k, v < 58 ^ k → (digits58 v).length ≤ k)

/-- R12: `val58` accumulates most significant digit first, and is inverse to `digits58`. -/
def Obligations.Val58InvertsDigits58 : Prop :=
  val58 [] = 0 ∧ (∀ (d : List Nat) (x : Nat), val58 (d ++ [x]) = val58 d * 58 + x) ∧
  ∀ v : Nat, val58 ((digits58 v).map Fin.val) = v

/-- R13: the recursion of `minbytes`, its leading byte, its length, the least `k` with `256^k > V`, and its value. -/
def Obligations.MinbytesIsTheMinimalRepresentation : Prop :=
  minbytes 0 = [] ∧
  ∀ v : Nat, (0 < v →
    (minbytes v).map BitVec.toNat = (minbytes (v / 256)).map BitVec.toNat ++ [v % 256] ∧
    (∃ b bs, minbytes v = b :: bs ∧ b ≠ 0#8) ∧
    v < 256 ^ (minbytes v).length ∧ (∀ k, v < 256 ^ k → (minbytes v).length ≤ k)) ∧ val256 (minbytes v) = v

/-- R14: `lead(s, x)` is the largest `z <= |s|` such that the first `z` elements are `x`. -/
def Obligations.LeadIsTheLargestRun : Prop :=
  ∀ (s : List Byte) (x : Byte), lead s x ≤ s.length ∧ (∀ i < lead s x, s[i]? = some x) ∧
    (∀ z ≤ s.length, (∀ i < z, s[i]? = some x) → z ≤ lead s x)

/-! ## Alphabets and conversions -/

/-- R112, R115: `symbolOf` and `digitOf` of an alphabet are inverse to each other, 58 bytes have a digit, and 198 have
none. -/
def Obligations.SymbolAndDigitTablesAreInverse : Prop :=
  ∀ A : Alphabet, A.wf →
    (∀ d : Digit, digitOf A (symbolOf A d) = some d.val) ∧
    (∀ (b : Byte) (n : Nat), digitOf A b = some n → ∃ h : n < 58, symbolOf A ⟨n, h⟩ = b) ∧
    (∀ b : Byte, digitOf A b = some 0 ↔ b = symbolOf A 0) ∧
    ((List.range 256).filter (fun n => digitOf A (BitVec.ofNat 8 n) == none)).length = 198

/-- R167, tier 3: the converse round trip, for every alphabet and every text of its symbols. -/
def Obligations.EncodeInvertsDecode : Prop :=
  ∀ (A : Alphabet) (x : List Byte), A.wf → (∀ b ∈ x, ∃ d : Digit, symbolOf A d = b) → encText A (decText A x) = x

/-- R142, R143, R162, R163: empty input converts to empty output, and `k` zeros to exactly `k` zeros of the other
side. -/
def Obligations.EmptyAndAllZeroInputsConvertOneForOne : Prop :=
  ∀ (A : Alphabet) (k : Nat), A.wf → encText A [] = [] ∧ decText A [] = [] ∧ firstInvalid A [] = none ∧
    encText A (List.replicate k 0#8) = List.replicate k (symbolOf A 0) ∧
    decText A (List.replicate k (symbolOf A 0)) = List.replicate k 0#8

/-- R144: each leading zero byte gives one leading zero-digit symbol, and the text has exactly as many. -/
def Obligations.EncodePreservesLeadingZeros : Prop :=
  ∀ (A : Alphabet) (b : List Byte) (k : Nat), A.wf →
    encText A (List.replicate k 0#8 ++ b) = List.replicate k (symbolOf A 0) ++ encText A b ∧
    lead (encText A b) (symbolOf A 0) = lead b 0#8

/-- R165: each leading zero-digit symbol gives one leading zero byte, and the payload has exactly as many. -/
def Obligations.DecodePreservesLeadingZeros : Prop :=
  ∀ (A : Alphabet) (x : List Byte) (k : Nat), A.wf → (∀ b ∈ x, ∃ d : Digit, symbolOf A d = b) →
    decText A (List.replicate k (symbolOf A 0) ++ x) = List.replicate k 0#8 ++ decText A x ∧
    lead (decText A x) 0#8 = lead x (symbolOf A 0)

/-- R145: the length of an encoding, with `z` leading zero bytes, `m` bytes after them and `k` digits: `k` is the least
with `58^k > V`, at least `m`, and at most every `l` with `58^l >= 256^m`. -/
def Obligations.EncodedLengthIsBounded : Prop :=
  ∀ (A : Alphabet) (b : List Byte) (z m k v : Nat), z = lead b 0#8 → m = b.length - z → v = val256 (b.drop z) →
    k = (digits58 v).length →
    (encText A b).length = z + k ∧ v < 58 ^ k ∧ (∀ l, v < 58 ^ l → k ≤ l) ∧ (m = 0 → k = 0) ∧
    (0 < m → 256 ^ (m - 1) ≤ v ∧ v < 256 ^ m) ∧ m ≤ k ∧ (∀ l, 256 ^ m ≤ 58 ^ l → k ≤ l)

/-- R166: the length of a decoding, with `z` leading zero-digit symbols, `q` symbols after them and `k` bytes: `k` is the
least with `256^k > V`, at least 1 where `q` is, and at most every `l` with `256^l >= 58^q`; the decoding is never longer
than the text. -/
def Obligations.DecodedLengthIsBounded : Prop :=
  ∀ (A : Alphabet) (x : List Byte) (z q k v : Nat), A.wf → (∀ b ∈ x, ∃ d : Digit, symbolOf A d = b) →
    z = lead x (symbolOf A 0) → q = x.length - z → v = val58 (x.map (fun b => (invOf A b).toNat)) →
    k = (minbytes v).length →
    (decText A x).length = z + k ∧ (q = 0 → v = 0 ∧ k = 0) ∧
    (0 < q → 58 ^ (q - 1) ≤ v ∧ v < 58 ^ q ∧ 1 ≤ k ∧ k ≤ q) ∧
    v < 256 ^ k ∧ (∀ l, v < 256 ^ l → k ≤ l) ∧ (∀ l, 58 ^ q ≤ 256 ^ l → k ≤ l) ∧ (decText A x).length ≤ x.length

/-- R147, tier 3: under the constraint of R7 no payload that fits `BBUF` has a text longer than `TBUF`, so `ENCODE` of a
length in range under a loaded alphabet never fails. -/
def Obligations.EncodingFitsUnderTheCapacityConstraint : Prop :=
  (∀ (nMax tMax : Nat) (A : Alphabet) (b : List Byte), 256 ^ nMax ≤ 58 ^ tMax → b.length ≤ nMax →
    (encText A b).length ≤ tMax) ∧
  (∀ (a : AlphaSel) (s : State) (A : Alphabet), s.cfg.roomy → selectAlphabet a s = some A →
    s.blen.toNat ≤ s.cfg.nMax.toNat → ∃ t, exec (.encode a) s = .next t ∧ CompletedWell t) ∧
  (∀ A : Alphabet, (encText A (List.replicate 64 0xFF#8)).length = 88)

/-- R150, R146, tier 3: the round trip. For every alphabet and every byte sequence the text is valid and decodes to the bytes;
in hardware terms, from any state of the invariant with R7 in force, `BLEN <= N_MAX` and the selected alphabet loaded,
`ENCODE` then `DECODE` with the same `ASEL` complete without error and leave the payload as it was and the text in
`TBUF`. -/
def Obligations.EncodeThenDecodeRestoresThePayload : Prop :=
  (∀ (A : Alphabet) (b : List Byte), A.wf → firstInvalid A (encText A b) = none ∧ decText A (encText A b) = b) ∧
  (∀ (a : AlphaSel) (s : State) (A : Alphabet), Inv s → s.cfg.roomy → selectAlphabet a s = some A →
    s.blen.toNat ≤ s.cfg.nMax.toNat →
    ∃ t u, exec (.encode a) s = .next t ∧ exec (.decode a) t = .next u ∧ CompletedWell t ∧ CompletedWell u ∧
      u.blen = s.blen ∧ (∀ off, 0x10000 ≤ off → off < 0x10000 + s.blen.toNat → readByte u off = readByte s off) ∧
      text u = encText A (payload s))

/-! ## The reference datapaths -/

/-- R148, tier 3: the schoolbook long division computes what R141 defines, and overflows exactly when the text is longer
than `TBUF`. -/
def Obligations.EncodeDatapathComputesTheEncoding : Prop :=
  ∀ (A : Alphabet) (tMax : Nat) (b : List Byte),
    encodeDatapath A tMax b = if tMax < (encText A b).length then none else some (encText A b)

/-- R168, tier 3: the multiply-accumulate datapath answers what R160 and R161 define, its overflow included. -/
def Obligations.DecodeDatapathComputesTheDecoding : Prop :=
  ∀ (A : Alphabet) (nMax : Nat) (x : List Byte), A.wf →
    decodeDatapath A nMax x =
      match firstInvalid A x with
      | some (i, b) => .invalid i b
      | none => if nMax < (decText A x).length then .overflow else .payload (decText A x)

/-- R121: the scan with the working table finds the duplicate R120 reports, and otherwise its table is the inverse table
of R112. -/
def Obligations.ScanComputesTheDuplicateTest : Prop :=
  ∀ sym : Vector Byte 58, scanSymbols 0 emptyTable sym.toList =
    match firstRepeat [] sym.toList with
    | some (j, b) => .repeated j b
    | none => .table (invTable sym)
end

