-- ==== Sys2Proof/Laws/State.lean ====
section
/-! SUPPORT. One lemma per field of `State` for each named update, so that no proof unfolds a record update. -/

namespace Sys2Proof.Machine

@[simp] theorem flagsIssued_cfg (s : State) : (flagsIssued s).cfg = s.cfg := rfl
@[simp] theorem flagsIssued_lcmd (s : State) : (flagsIssued s).lcmd = s.lcmd := rfl
@[simp] theorem flagsIssued_busy (s : State) : (flagsIssued s).busy = true := rfl
@[simp] theorem flagsIssued_done (s : State) : (flagsIssued s).done = false := rfl
@[simp] theorem flagsIssued_err (s : State) : (flagsIssued s).err = false := rfl
@[simp] theorem flagsIssued_avalid (s : State) : (flagsIssued s).avalid = s.avalid := rfl
@[simp] theorem flagsIssued_errcode (s : State) : (flagsIssued s).errcode = s.errcode := rfl
@[simp] theorem flagsIssued_errbyte (s : State) : (flagsIssued s).errbyte = s.errbyte := rfl
@[simp] theorem flagsIssued_errpos (s : State) : (flagsIssued s).errpos = s.errpos := rfl
@[simp] theorem flagsIssued_blen (s : State) : (flagsIssued s).blen = s.blen := rfl
@[simp] theorem flagsIssued_tlen (s : State) : (flagsIssued s).tlen = s.tlen := rfl
@[simp] theorem flagsIssued_alen (s : State) : (flagsIssued s).alen = s.alen := rfl
@[simp] theorem flagsIssued_res (s : State) : (flagsIssued s).res = s.res := rfl
@[simp] theorem flagsIssued_mem (s : State) : (flagsIssued s).mem = s.mem := rfl
@[simp] theorem flagsIssued_csym (s : State) : (flagsIssued s).csym = s.csym := rfl
@[simp] theorem flagsIssued_cinv (s : State) : (flagsIssued s).cinv = s.cinv := rfl
@[simp] theorem flagsIssued_ramEpoch (s : State) : (flagsIssued s).ramEpoch = s.ramEpoch := rfl
@[simp] theorem flagsIssued_draws (s : State) : (flagsIssued s).draws = s.draws := rfl
@[simp] theorem flagsIssued_pending (s : State) : (flagsIssued s).pending = s.pending := rfl
@[simp] theorem flagsIssued_replies (s : State) : (flagsIssued s).replies = s.replies := rfl

@[simp] theorem flagsDone_cfg (s : State) : (flagsDone s).cfg = s.cfg := rfl
@[simp] theorem flagsDone_lcmd (s : State) : (flagsDone s).lcmd = s.lcmd := rfl
@[simp] theorem flagsDone_busy (s : State) : (flagsDone s).busy = false := rfl
@[simp] theorem flagsDone_done (s : State) : (flagsDone s).done = true := rfl
@[simp] theorem flagsDone_err (s : State) : (flagsDone s).err = false := rfl
@[simp] theorem flagsDone_avalid (s : State) : (flagsDone s).avalid = s.avalid := rfl
@[simp] theorem flagsDone_errcode (s : State) : (flagsDone s).errcode = s.errcode := rfl
@[simp] theorem flagsDone_errbyte (s : State) : (flagsDone s).errbyte = s.errbyte := rfl
@[simp] theorem flagsDone_errpos (s : State) : (flagsDone s).errpos = s.errpos := rfl
@[simp] theorem flagsDone_blen (s : State) : (flagsDone s).blen = s.blen := rfl
@[simp] theorem flagsDone_tlen (s : State) : (flagsDone s).tlen = s.tlen := rfl
@[simp] theorem flagsDone_alen (s : State) : (flagsDone s).alen = s.alen := rfl
@[simp] theorem flagsDone_res (s : State) : (flagsDone s).res = s.res := rfl
@[simp] theorem flagsDone_mem (s : State) : (flagsDone s).mem = s.mem := rfl
@[simp] theorem flagsDone_csym (s : State) : (flagsDone s).csym = s.csym := rfl
@[simp] theorem flagsDone_cinv (s : State) : (flagsDone s).cinv = s.cinv := rfl
@[simp] theorem flagsDone_ramEpoch (s : State) : (flagsDone s).ramEpoch = s.ramEpoch := rfl
@[simp] theorem flagsDone_draws (s : State) : (flagsDone s).draws = s.draws := rfl
@[simp] theorem flagsDone_pending (s : State) : (flagsDone s).pending = s.pending := rfl
@[simp] theorem flagsDone_replies (s : State) : (flagsDone s).replies = s.replies := rfl

@[simp] theorem flagsFailed_cfg (s : State) : (flagsFailed s).cfg = s.cfg := rfl
@[simp] theorem flagsFailed_lcmd (s : State) : (flagsFailed s).lcmd = s.lcmd := rfl
@[simp] theorem flagsFailed_busy (s : State) : (flagsFailed s).busy = false := rfl
@[simp] theorem flagsFailed_done (s : State) : (flagsFailed s).done = true := rfl
@[simp] theorem flagsFailed_err (s : State) : (flagsFailed s).err = true := rfl
@[simp] theorem flagsFailed_avalid (s : State) : (flagsFailed s).avalid = s.avalid := rfl
@[simp] theorem flagsFailed_errcode (s : State) : (flagsFailed s).errcode = s.errcode := rfl
@[simp] theorem flagsFailed_errbyte (s : State) : (flagsFailed s).errbyte = s.errbyte := rfl
@[simp] theorem flagsFailed_errpos (s : State) : (flagsFailed s).errpos = s.errpos := rfl
@[simp] theorem flagsFailed_blen (s : State) : (flagsFailed s).blen = s.blen := rfl
@[simp] theorem flagsFailed_tlen (s : State) : (flagsFailed s).tlen = s.tlen := rfl
@[simp] theorem flagsFailed_alen (s : State) : (flagsFailed s).alen = s.alen := rfl
@[simp] theorem flagsFailed_res (s : State) : (flagsFailed s).res = s.res := rfl
@[simp] theorem flagsFailed_mem (s : State) : (flagsFailed s).mem = s.mem := rfl
@[simp] theorem flagsFailed_csym (s : State) : (flagsFailed s).csym = s.csym := rfl
@[simp] theorem flagsFailed_cinv (s : State) : (flagsFailed s).cinv = s.cinv := rfl
@[simp] theorem flagsFailed_ramEpoch (s : State) : (flagsFailed s).ramEpoch = s.ramEpoch := rfl
@[simp] theorem flagsFailed_draws (s : State) : (flagsFailed s).draws = s.draws := rfl
@[simp] theorem flagsFailed_pending (s : State) : (flagsFailed s).pending = s.pending := rfl
@[simp] theorem flagsFailed_replies (s : State) : (flagsFailed s).replies = s.replies := rfl

@[simp] theorem flagsCleared_cfg (s : State) : (flagsCleared s).cfg = s.cfg := rfl
@[simp] theorem flagsCleared_lcmd (s : State) : (flagsCleared s).lcmd = s.lcmd := rfl
@[simp] theorem flagsCleared_busy (s : State) : (flagsCleared s).busy = false := rfl
@[simp] theorem flagsCleared_done (s : State) : (flagsCleared s).done = false := rfl
@[simp] theorem flagsCleared_err (s : State) : (flagsCleared s).err = false := rfl
@[simp] theorem flagsCleared_avalid (s : State) : (flagsCleared s).avalid = false := rfl
@[simp] theorem flagsCleared_errcode (s : State) : (flagsCleared s).errcode = s.errcode := rfl
@[simp] theorem flagsCleared_errbyte (s : State) : (flagsCleared s).errbyte = s.errbyte := rfl
@[simp] theorem flagsCleared_errpos (s : State) : (flagsCleared s).errpos = s.errpos := rfl
@[simp] theorem flagsCleared_blen (s : State) : (flagsCleared s).blen = s.blen := rfl
@[simp] theorem flagsCleared_tlen (s : State) : (flagsCleared s).tlen = s.tlen := rfl
@[simp] theorem flagsCleared_alen (s : State) : (flagsCleared s).alen = s.alen := rfl
@[simp] theorem flagsCleared_res (s : State) : (flagsCleared s).res = s.res := rfl
@[simp] theorem flagsCleared_mem (s : State) : (flagsCleared s).mem = s.mem := rfl
@[simp] theorem flagsCleared_csym (s : State) : (flagsCleared s).csym = s.csym := rfl
@[simp] theorem flagsCleared_cinv (s : State) : (flagsCleared s).cinv = s.cinv := rfl
@[simp] theorem flagsCleared_ramEpoch (s : State) : (flagsCleared s).ramEpoch = s.ramEpoch := rfl
@[simp] theorem flagsCleared_draws (s : State) : (flagsCleared s).draws = s.draws := rfl
@[simp] theorem flagsCleared_pending (s : State) : (flagsCleared s).pending = s.pending := rfl
@[simp] theorem flagsCleared_replies (s : State) : (flagsCleared s).replies = s.replies := rfl

@[simp] theorem forgetCustom_cfg (s : State) : (forgetCustom s).cfg = s.cfg := rfl
@[simp] theorem forgetCustom_lcmd (s : State) : (forgetCustom s).lcmd = s.lcmd := rfl
@[simp] theorem forgetCustom_busy (s : State) : (forgetCustom s).busy = s.busy := rfl
@[simp] theorem forgetCustom_done (s : State) : (forgetCustom s).done = s.done := rfl
@[simp] theorem forgetCustom_err (s : State) : (forgetCustom s).err = s.err := rfl
@[simp] theorem forgetCustom_avalid (s : State) : (forgetCustom s).avalid = false := rfl
@[simp] theorem forgetCustom_errcode (s : State) : (forgetCustom s).errcode = s.errcode := rfl
@[simp] theorem forgetCustom_errbyte (s : State) : (forgetCustom s).errbyte = s.errbyte := rfl
@[simp] theorem forgetCustom_errpos (s : State) : (forgetCustom s).errpos = s.errpos := rfl
@[simp] theorem forgetCustom_blen (s : State) : (forgetCustom s).blen = s.blen := rfl
@[simp] theorem forgetCustom_tlen (s : State) : (forgetCustom s).tlen = s.tlen := rfl
@[simp] theorem forgetCustom_alen (s : State) : (forgetCustom s).alen = s.alen := rfl
@[simp] theorem forgetCustom_res (s : State) : (forgetCustom s).res = s.res := rfl
@[simp] theorem forgetCustom_mem (s : State) : (forgetCustom s).mem = s.mem := rfl
@[simp] theorem forgetCustom_csym (s : State) : (forgetCustom s).csym = Config.anySyms s.draws := rfl
@[simp] theorem forgetCustom_cinv (s : State) : (forgetCustom s).cinv = Config.anyInv s.draws := rfl
@[simp] theorem forgetCustom_ramEpoch (s : State) : (forgetCustom s).ramEpoch = s.ramEpoch := rfl
@[simp] theorem forgetCustom_draws (s : State) : (forgetCustom s).draws = s.draws + 1 := rfl
@[simp] theorem forgetCustom_pending (s : State) : (forgetCustom s).pending = s.pending := rfl
@[simp] theorem forgetCustom_replies (s : State) : (forgetCustom s).replies = s.replies := rfl

@[simp] theorem report_cfg (c : Byte) (b : Byte) (p : Word) (s : State) : (report c b p s).cfg = s.cfg := rfl
@[simp] theorem report_lcmd (c : Byte) (b : Byte) (p : Word) (s : State) : (report c b p s).lcmd = s.lcmd := rfl
@[simp] theorem report_busy (c : Byte) (b : Byte) (p : Word) (s : State) : (report c b p s).busy = s.busy := rfl
@[simp] theorem report_done (c : Byte) (b : Byte) (p : Word) (s : State) : (report c b p s).done = s.done := rfl
@[simp] theorem report_err (c : Byte) (b : Byte) (p : Word) (s : State) : (report c b p s).err = s.err := rfl
@[simp] theorem report_avalid (c : Byte) (b : Byte) (p : Word) (s : State) : (report c b p s).avalid = s.avalid := rfl
@[simp] theorem report_errcode (c : Byte) (b : Byte) (p : Word) (s : State) : (report c b p s).errcode = c := rfl
@[simp] theorem report_errbyte (c : Byte) (b : Byte) (p : Word) (s : State) : (report c b p s).errbyte = b := rfl
@[simp] theorem report_errpos (c : Byte) (b : Byte) (p : Word) (s : State) : (report c b p s).errpos = p := rfl
@[simp] theorem report_blen (c : Byte) (b : Byte) (p : Word) (s : State) : (report c b p s).blen = s.blen := rfl
@[simp] theorem report_tlen (c : Byte) (b : Byte) (p : Word) (s : State) : (report c b p s).tlen = s.tlen := rfl
@[simp] theorem report_alen (c : Byte) (b : Byte) (p : Word) (s : State) : (report c b p s).alen = s.alen := rfl
@[simp] theorem report_res (c : Byte) (b : Byte) (p : Word) (s : State) : (report c b p s).res = s.res := rfl
@[simp] theorem report_mem (c : Byte) (b : Byte) (p : Word) (s : State) : (report c b p s).mem = s.mem := rfl
@[simp] theorem report_csym (c : Byte) (b : Byte) (p : Word) (s : State) : (report c b p s).csym = s.csym := rfl
@[simp] theorem report_cinv (c : Byte) (b : Byte) (p : Word) (s : State) : (report c b p s).cinv = s.cinv := rfl
@[simp] theorem report_ramEpoch (c : Byte) (b : Byte) (p : Word) (s : State) : (report c b p s).ramEpoch = s.ramEpoch := rfl
@[simp] theorem report_draws (c : Byte) (b : Byte) (p : Word) (s : State) : (report c b p s).draws = s.draws := rfl
@[simp] theorem report_pending (c : Byte) (b : Byte) (p : Word) (s : State) : (report c b p s).pending = s.pending := rfl
@[simp] theorem report_replies (c : Byte) (b : Byte) (p : Word) (s : State) : (report c b p s).replies = s.replies := rfl

@[simp] theorem finish_cfg (s : State) : (finish s).cfg = s.cfg := rfl
@[simp] theorem finish_lcmd (s : State) : (finish s).lcmd = s.lcmd := rfl
@[simp] theorem finish_busy (s : State) : (finish s).busy = false := rfl
@[simp] theorem finish_done (s : State) : (finish s).done = true := rfl
@[simp] theorem finish_err (s : State) : (finish s).err = false := rfl
@[simp] theorem finish_avalid (s : State) : (finish s).avalid = s.avalid := rfl
@[simp] theorem finish_errcode (s : State) : (finish s).errcode = s.errcode := rfl
@[simp] theorem finish_errbyte (s : State) : (finish s).errbyte = s.errbyte := rfl
@[simp] theorem finish_errpos (s : State) : (finish s).errpos = s.errpos := rfl
@[simp] theorem finish_blen (s : State) : (finish s).blen = s.blen := rfl
@[simp] theorem finish_tlen (s : State) : (finish s).tlen = s.tlen := rfl
@[simp] theorem finish_alen (s : State) : (finish s).alen = s.alen := rfl
@[simp] theorem finish_res (s : State) : (finish s).res = s.res := rfl
@[simp] theorem finish_mem (s : State) : (finish s).mem = s.mem := rfl
@[simp] theorem finish_csym (s : State) : (finish s).csym = s.csym := rfl
@[simp] theorem finish_cinv (s : State) : (finish s).cinv = s.cinv := rfl
@[simp] theorem finish_ramEpoch (s : State) : (finish s).ramEpoch = s.ramEpoch := rfl
@[simp] theorem finish_draws (s : State) : (finish s).draws = s.draws := rfl
@[simp] theorem finish_pending (s : State) : (finish s).pending = s.pending := rfl
@[simp] theorem finish_replies (s : State) : (finish s).replies = s.replies := rfl

@[simp] theorem issue_cfg (w : Word) (s : State) : (issue w s).cfg = s.cfg := rfl
@[simp] theorem issue_lcmd (w : Word) (s : State) : (issue w s).lcmd = w := rfl
@[simp] theorem issue_busy (w : Word) (s : State) : (issue w s).busy = true := rfl
@[simp] theorem issue_done (w : Word) (s : State) : (issue w s).done = false := rfl
@[simp] theorem issue_err (w : Word) (s : State) : (issue w s).err = false := rfl
@[simp] theorem issue_avalid (w : Word) (s : State) : (issue w s).avalid = s.avalid := rfl
@[simp] theorem issue_errcode (w : Word) (s : State) : (issue w s).errcode = 0 := rfl
@[simp] theorem issue_errbyte (w : Word) (s : State) : (issue w s).errbyte = 0 := rfl
@[simp] theorem issue_errpos (w : Word) (s : State) : (issue w s).errpos = 0 := rfl
@[simp] theorem issue_blen (w : Word) (s : State) : (issue w s).blen = s.blen := rfl
@[simp] theorem issue_tlen (w : Word) (s : State) : (issue w s).tlen = s.tlen := rfl
@[simp] theorem issue_alen (w : Word) (s : State) : (issue w s).alen = s.alen := rfl
@[simp] theorem issue_res (w : Word) (s : State) : (issue w s).res = s.res := rfl
@[simp] theorem issue_mem (w : Word) (s : State) : (issue w s).mem = s.mem := rfl
@[simp] theorem issue_csym (w : Word) (s : State) : (issue w s).csym = s.csym := rfl
@[simp] theorem issue_cinv (w : Word) (s : State) : (issue w s).cinv = s.cinv := rfl
@[simp] theorem issue_ramEpoch (w : Word) (s : State) : (issue w s).ramEpoch = s.ramEpoch := rfl
@[simp] theorem issue_draws (w : Word) (s : State) : (issue w s).draws = s.draws := rfl
@[simp] theorem issue_pending (w : Word) (s : State) : (issue w s).pending = s.pending := rfl
@[simp] theorem issue_replies (w : Word) (s : State) : (issue w s).replies = s.replies := rfl

@[simp] theorem clearRegisters_cfg (s : State) : (clearRegisters s).cfg = s.cfg := rfl
@[simp] theorem clearRegisters_lcmd (s : State) : (clearRegisters s).lcmd = 0 := rfl
@[simp] theorem clearRegisters_busy (s : State) : (clearRegisters s).busy = false := rfl
@[simp] theorem clearRegisters_done (s : State) : (clearRegisters s).done = false := rfl
@[simp] theorem clearRegisters_err (s : State) : (clearRegisters s).err = false := rfl
@[simp] theorem clearRegisters_avalid (s : State) : (clearRegisters s).avalid = false := rfl
@[simp] theorem clearRegisters_errcode (s : State) : (clearRegisters s).errcode = 0 := rfl
@[simp] theorem clearRegisters_errbyte (s : State) : (clearRegisters s).errbyte = 0 := rfl
@[simp] theorem clearRegisters_errpos (s : State) : (clearRegisters s).errpos = 0 := rfl
@[simp] theorem clearRegisters_blen (s : State) : (clearRegisters s).blen = 0 := rfl
@[simp] theorem clearRegisters_tlen (s : State) : (clearRegisters s).tlen = 0 := rfl
@[simp] theorem clearRegisters_alen (s : State) : (clearRegisters s).alen = 0 := rfl
@[simp] theorem clearRegisters_res (s : State) : (clearRegisters s).res = 0 := rfl
@[simp] theorem clearRegisters_mem (s : State) : (clearRegisters s).mem = s.mem := rfl
@[simp] theorem clearRegisters_csym (s : State) : (clearRegisters s).csym = Config.anySyms s.draws := rfl
@[simp] theorem clearRegisters_cinv (s : State) : (clearRegisters s).cinv = Config.anyInv s.draws := rfl
@[simp] theorem clearRegisters_ramEpoch (s : State) : (clearRegisters s).ramEpoch = s.ramEpoch := rfl
@[simp] theorem clearRegisters_draws (s : State) : (clearRegisters s).draws = s.draws + 1 := rfl
@[simp] theorem clearRegisters_pending (s : State) : (clearRegisters s).pending = s.pending := rfl
@[simp] theorem clearRegisters_replies (s : State) : (clearRegisters s).replies = s.replies := rfl

@[simp] theorem hardReset_cfg (s : State) : (hardReset s).cfg = s.cfg := rfl
@[simp] theorem hardReset_lcmd (s : State) : (hardReset s).lcmd = 0 := rfl
@[simp] theorem hardReset_busy (s : State) : (hardReset s).busy = false := rfl
@[simp] theorem hardReset_done (s : State) : (hardReset s).done = false := rfl
@[simp] theorem hardReset_err (s : State) : (hardReset s).err = false := rfl
@[simp] theorem hardReset_avalid (s : State) : (hardReset s).avalid = false := rfl
@[simp] theorem hardReset_errcode (s : State) : (hardReset s).errcode = 0 := rfl
@[simp] theorem hardReset_errbyte (s : State) : (hardReset s).errbyte = 0 := rfl
@[simp] theorem hardReset_errpos (s : State) : (hardReset s).errpos = 0 := rfl
@[simp] theorem hardReset_blen (s : State) : (hardReset s).blen = 0 := rfl
@[simp] theorem hardReset_tlen (s : State) : (hardReset s).tlen = 0 := rfl
@[simp] theorem hardReset_alen (s : State) : (hardReset s).alen = 0 := rfl
@[simp] theorem hardReset_res (s : State) : (hardReset s).res = 0 := rfl
@[simp] theorem hardReset_mem (s : State) : (hardReset s).mem = [] := rfl
@[simp] theorem hardReset_csym (s : State) : (hardReset s).csym = Config.anySyms s.draws := rfl
@[simp] theorem hardReset_cinv (s : State) : (hardReset s).cinv = Config.anyInv s.draws := rfl
@[simp] theorem hardReset_ramEpoch (s : State) : (hardReset s).ramEpoch = s.draws := rfl
@[simp] theorem hardReset_draws (s : State) : (hardReset s).draws = s.draws + 1 := rfl
@[simp] theorem hardReset_pending (s : State) : (hardReset s).pending = s.pending := rfl
@[simp] theorem hardReset_replies (s : State) : (hardReset s).replies = s.replies := rfl

@[simp] theorem writeByte_cfg (off : Nat) (v : Byte) (s : State) : (writeByte off v s).cfg = s.cfg := rfl
@[simp] theorem writeByte_lcmd (off : Nat) (v : Byte) (s : State) : (writeByte off v s).lcmd = s.lcmd := rfl
@[simp] theorem writeByte_busy (off : Nat) (v : Byte) (s : State) : (writeByte off v s).busy = s.busy := rfl
@[simp] theorem writeByte_done (off : Nat) (v : Byte) (s : State) : (writeByte off v s).done = s.done := rfl
@[simp] theorem writeByte_err (off : Nat) (v : Byte) (s : State) : (writeByte off v s).err = s.err := rfl
@[simp] theorem writeByte_avalid (off : Nat) (v : Byte) (s : State) : (writeByte off v s).avalid = s.avalid := rfl
@[simp] theorem writeByte_errcode (off : Nat) (v : Byte) (s : State) : (writeByte off v s).errcode = s.errcode := rfl
@[simp] theorem writeByte_errbyte (off : Nat) (v : Byte) (s : State) : (writeByte off v s).errbyte = s.errbyte := rfl
@[simp] theorem writeByte_errpos (off : Nat) (v : Byte) (s : State) : (writeByte off v s).errpos = s.errpos := rfl
@[simp] theorem writeByte_blen (off : Nat) (v : Byte) (s : State) : (writeByte off v s).blen = s.blen := rfl
@[simp] theorem writeByte_tlen (off : Nat) (v : Byte) (s : State) : (writeByte off v s).tlen = s.tlen := rfl
@[simp] theorem writeByte_alen (off : Nat) (v : Byte) (s : State) : (writeByte off v s).alen = s.alen := rfl
@[simp] theorem writeByte_res (off : Nat) (v : Byte) (s : State) : (writeByte off v s).res = s.res := rfl
@[simp] theorem writeByte_mem (off : Nat) (v : Byte) (s : State) : (writeByte off v s).mem = insertCell s.mem off v := rfl
@[simp] theorem writeByte_csym (off : Nat) (v : Byte) (s : State) : (writeByte off v s).csym = s.csym := rfl
@[simp] theorem writeByte_cinv (off : Nat) (v : Byte) (s : State) : (writeByte off v s).cinv = s.cinv := rfl
@[simp] theorem writeByte_ramEpoch (off : Nat) (v : Byte) (s : State) : (writeByte off v s).ramEpoch = s.ramEpoch := rfl
@[simp] theorem writeByte_draws (off : Nat) (v : Byte) (s : State) : (writeByte off v s).draws = s.draws := rfl
@[simp] theorem writeByte_pending (off : Nat) (v : Byte) (s : State) : (writeByte off v s).pending = s.pending := rfl
@[simp] theorem writeByte_replies (off : Nat) (v : Byte) (s : State) : (writeByte off v s).replies = s.replies := rfl

@[simp] theorem setRes_cfg (v : Byte) (s : State) : (setRes v s).cfg = s.cfg := rfl
@[simp] theorem setRes_lcmd (v : Byte) (s : State) : (setRes v s).lcmd = s.lcmd := rfl
@[simp] theorem setRes_busy (v : Byte) (s : State) : (setRes v s).busy = s.busy := rfl
@[simp] theorem setRes_done (v : Byte) (s : State) : (setRes v s).done = s.done := rfl
@[simp] theorem setRes_err (v : Byte) (s : State) : (setRes v s).err = s.err := rfl
@[simp] theorem setRes_avalid (v : Byte) (s : State) : (setRes v s).avalid = s.avalid := rfl
@[simp] theorem setRes_errcode (v : Byte) (s : State) : (setRes v s).errcode = s.errcode := rfl
@[simp] theorem setRes_errbyte (v : Byte) (s : State) : (setRes v s).errbyte = s.errbyte := rfl
@[simp] theorem setRes_errpos (v : Byte) (s : State) : (setRes v s).errpos = s.errpos := rfl
@[simp] theorem setRes_blen (v : Byte) (s : State) : (setRes v s).blen = s.blen := rfl
@[simp] theorem setRes_tlen (v : Byte) (s : State) : (setRes v s).tlen = s.tlen := rfl
@[simp] theorem setRes_alen (v : Byte) (s : State) : (setRes v s).alen = s.alen := rfl
@[simp] theorem setRes_res (v : Byte) (s : State) : (setRes v s).res = v := rfl
@[simp] theorem setRes_mem (v : Byte) (s : State) : (setRes v s).mem = s.mem := rfl
@[simp] theorem setRes_csym (v : Byte) (s : State) : (setRes v s).csym = s.csym := rfl
@[simp] theorem setRes_cinv (v : Byte) (s : State) : (setRes v s).cinv = s.cinv := rfl
@[simp] theorem setRes_ramEpoch (v : Byte) (s : State) : (setRes v s).ramEpoch = s.ramEpoch := rfl
@[simp] theorem setRes_draws (v : Byte) (s : State) : (setRes v s).draws = s.draws := rfl
@[simp] theorem setRes_pending (v : Byte) (s : State) : (setRes v s).pending = s.pending := rfl
@[simp] theorem setRes_replies (v : Byte) (s : State) : (setRes v s).replies = s.replies := rfl

@[simp] theorem loadCustom_cfg (y : Vector Byte 58) (s : State) : (loadCustom y s).cfg = s.cfg := rfl
@[simp] theorem loadCustom_lcmd (y : Vector Byte 58) (s : State) : (loadCustom y s).lcmd = s.lcmd := rfl
@[simp] theorem loadCustom_busy (y : Vector Byte 58) (s : State) : (loadCustom y s).busy = s.busy := rfl
@[simp] theorem loadCustom_done (y : Vector Byte 58) (s : State) : (loadCustom y s).done = s.done := rfl
@[simp] theorem loadCustom_err (y : Vector Byte 58) (s : State) : (loadCustom y s).err = s.err := rfl
@[simp] theorem loadCustom_avalid (y : Vector Byte 58) (s : State) : (loadCustom y s).avalid = true := rfl
@[simp] theorem loadCustom_errcode (y : Vector Byte 58) (s : State) : (loadCustom y s).errcode = s.errcode := rfl
@[simp] theorem loadCustom_errbyte (y : Vector Byte 58) (s : State) : (loadCustom y s).errbyte = s.errbyte := rfl
@[simp] theorem loadCustom_errpos (y : Vector Byte 58) (s : State) : (loadCustom y s).errpos = s.errpos := rfl
@[simp] theorem loadCustom_blen (y : Vector Byte 58) (s : State) : (loadCustom y s).blen = s.blen := rfl
@[simp] theorem loadCustom_tlen (y : Vector Byte 58) (s : State) : (loadCustom y s).tlen = s.tlen := rfl
@[simp] theorem loadCustom_alen (y : Vector Byte 58) (s : State) : (loadCustom y s).alen = s.alen := rfl
@[simp] theorem loadCustom_res (y : Vector Byte 58) (s : State) : (loadCustom y s).res = s.res := rfl
@[simp] theorem loadCustom_mem (y : Vector Byte 58) (s : State) : (loadCustom y s).mem = s.mem := rfl
@[simp] theorem loadCustom_csym (y : Vector Byte 58) (s : State) : (loadCustom y s).csym = y := rfl
@[simp] theorem loadCustom_cinv (y : Vector Byte 58) (s : State) : (loadCustom y s).cinv = invTable y := rfl
@[simp] theorem loadCustom_ramEpoch (y : Vector Byte 58) (s : State) : (loadCustom y s).ramEpoch = s.ramEpoch := rfl
@[simp] theorem loadCustom_draws (y : Vector Byte 58) (s : State) : (loadCustom y s).draws = s.draws := rfl
@[simp] theorem loadCustom_pending (y : Vector Byte 58) (s : State) : (loadCustom y s).pending = s.pending := rfl
@[simp] theorem loadCustom_replies (y : Vector Byte 58) (s : State) : (loadCustom y s).replies = s.replies := rfl

@[simp] theorem reply_cfg (r : Reply) (s : State) : (reply r s).cfg = s.cfg := rfl
@[simp] theorem reply_lcmd (r : Reply) (s : State) : (reply r s).lcmd = s.lcmd := rfl
@[simp] theorem reply_busy (r : Reply) (s : State) : (reply r s).busy = s.busy := rfl
@[simp] theorem reply_done (r : Reply) (s : State) : (reply r s).done = s.done := rfl
@[simp] theorem reply_err (r : Reply) (s : State) : (reply r s).err = s.err := rfl
@[simp] theorem reply_avalid (r : Reply) (s : State) : (reply r s).avalid = s.avalid := rfl
@[simp] theorem reply_errcode (r : Reply) (s : State) : (reply r s).errcode = s.errcode := rfl
@[simp] theorem reply_errbyte (r : Reply) (s : State) : (reply r s).errbyte = s.errbyte := rfl
@[simp] theorem reply_errpos (r : Reply) (s : State) : (reply r s).errpos = s.errpos := rfl
@[simp] theorem reply_blen (r : Reply) (s : State) : (reply r s).blen = s.blen := rfl
@[simp] theorem reply_tlen (r : Reply) (s : State) : (reply r s).tlen = s.tlen := rfl
@[simp] theorem reply_alen (r : Reply) (s : State) : (reply r s).alen = s.alen := rfl
@[simp] theorem reply_res (r : Reply) (s : State) : (reply r s).res = s.res := rfl
@[simp] theorem reply_mem (r : Reply) (s : State) : (reply r s).mem = s.mem := rfl
@[simp] theorem reply_csym (r : Reply) (s : State) : (reply r s).csym = s.csym := rfl
@[simp] theorem reply_cinv (r : Reply) (s : State) : (reply r s).cinv = s.cinv := rfl
@[simp] theorem reply_ramEpoch (r : Reply) (s : State) : (reply r s).ramEpoch = s.ramEpoch := rfl
@[simp] theorem reply_draws (r : Reply) (s : State) : (reply r s).draws = s.draws := rfl
@[simp] theorem reply_pending (r : Reply) (s : State) : (reply r s).pending = s.pending := rfl
@[simp] theorem reply_replies (r : Reply) (s : State) : (reply r s).replies = r :: s.replies := rfl

@[simp] theorem countDraw_cfg (s : State) : (countDraw s).cfg = s.cfg := rfl
@[simp] theorem countDraw_lcmd (s : State) : (countDraw s).lcmd = s.lcmd := rfl
@[simp] theorem countDraw_busy (s : State) : (countDraw s).busy = s.busy := rfl
@[simp] theorem countDraw_done (s : State) : (countDraw s).done = s.done := rfl
@[simp] theorem countDraw_err (s : State) : (countDraw s).err = s.err := rfl
@[simp] theorem countDraw_avalid (s : State) : (countDraw s).avalid = s.avalid := rfl
@[simp] theorem countDraw_errcode (s : State) : (countDraw s).errcode = s.errcode := rfl
@[simp] theorem countDraw_errbyte (s : State) : (countDraw s).errbyte = s.errbyte := rfl
@[simp] theorem countDraw_errpos (s : State) : (countDraw s).errpos = s.errpos := rfl
@[simp] theorem countDraw_blen (s : State) : (countDraw s).blen = s.blen := rfl
@[simp] theorem countDraw_tlen (s : State) : (countDraw s).tlen = s.tlen := rfl
@[simp] theorem countDraw_alen (s : State) : (countDraw s).alen = s.alen := rfl
@[simp] theorem countDraw_res (s : State) : (countDraw s).res = s.res := rfl
@[simp] theorem countDraw_mem (s : State) : (countDraw s).mem = s.mem := rfl
@[simp] theorem countDraw_csym (s : State) : (countDraw s).csym = s.csym := rfl
@[simp] theorem countDraw_cinv (s : State) : (countDraw s).cinv = s.cinv := rfl
@[simp] theorem countDraw_ramEpoch (s : State) : (countDraw s).ramEpoch = s.ramEpoch := rfl
@[simp] theorem countDraw_draws (s : State) : (countDraw s).draws = s.draws + 1 := rfl
@[simp] theorem countDraw_pending (s : State) : (countDraw s).pending = s.pending := rfl
@[simp] theorem countDraw_replies (s : State) : (countDraw s).replies = s.replies := rfl

@[simp] theorem takeEvent_cfg (s : State) : (takeEvent s).cfg = s.cfg := rfl
@[simp] theorem takeEvent_lcmd (s : State) : (takeEvent s).lcmd = s.lcmd := rfl
@[simp] theorem takeEvent_busy (s : State) : (takeEvent s).busy = s.busy := rfl
@[simp] theorem takeEvent_done (s : State) : (takeEvent s).done = s.done := rfl
@[simp] theorem takeEvent_err (s : State) : (takeEvent s).err = s.err := rfl
@[simp] theorem takeEvent_avalid (s : State) : (takeEvent s).avalid = s.avalid := rfl
@[simp] theorem takeEvent_errcode (s : State) : (takeEvent s).errcode = s.errcode := rfl
@[simp] theorem takeEvent_errbyte (s : State) : (takeEvent s).errbyte = s.errbyte := rfl
@[simp] theorem takeEvent_errpos (s : State) : (takeEvent s).errpos = s.errpos := rfl
@[simp] theorem takeEvent_blen (s : State) : (takeEvent s).blen = s.blen := rfl
@[simp] theorem takeEvent_tlen (s : State) : (takeEvent s).tlen = s.tlen := rfl
@[simp] theorem takeEvent_alen (s : State) : (takeEvent s).alen = s.alen := rfl
@[simp] theorem takeEvent_res (s : State) : (takeEvent s).res = s.res := rfl
@[simp] theorem takeEvent_mem (s : State) : (takeEvent s).mem = s.mem := rfl
@[simp] theorem takeEvent_csym (s : State) : (takeEvent s).csym = s.csym := rfl
@[simp] theorem takeEvent_cinv (s : State) : (takeEvent s).cinv = s.cinv := rfl
@[simp] theorem takeEvent_ramEpoch (s : State) : (takeEvent s).ramEpoch = s.ramEpoch := rfl
@[simp] theorem takeEvent_draws (s : State) : (takeEvent s).draws = s.draws := rfl
@[simp] theorem takeEvent_pending (s : State) : (takeEvent s).pending = s.pending.tail := rfl
@[simp] theorem takeEvent_replies (s : State) : (takeEvent s).replies = s.replies := rfl

/-! `raise` (spec/60_exceptions.md R200): the report and the flags; the custom slot only for `AlphabetError`. -/

@[simp] theorem raise_cfg (e : CmdError) (b : Byte) (p : Word) (s : State) : (raise e b p s).cfg = s.cfg := by unfold raise; split <;> rfl
@[simp] theorem raise_lcmd (e : CmdError) (b : Byte) (p : Word) (s : State) : (raise e b p s).lcmd = s.lcmd := by unfold raise; split <;> rfl
@[simp] theorem raise_busy (e : CmdError) (b : Byte) (p : Word) (s : State) : (raise e b p s).busy = false := by unfold raise; split <;> rfl
@[simp] theorem raise_done (e : CmdError) (b : Byte) (p : Word) (s : State) : (raise e b p s).done = true := by unfold raise; split <;> rfl
@[simp] theorem raise_err (e : CmdError) (b : Byte) (p : Word) (s : State) : (raise e b p s).err = true := by unfold raise; split <;> rfl
@[simp] theorem raise_avalid (e : CmdError) (h : e ≠ .alphabetError) (b : Byte) (p : Word) (s : State) :
    (raise e b p s).avalid = s.avalid := by simp [raise, h]
@[simp] theorem raise_errcode (e : CmdError) (b : Byte) (p : Word) (s : State) : (raise e b p s).errcode = codeOf e := by unfold raise; split <;> rfl
@[simp] theorem raise_errbyte (e : CmdError) (b : Byte) (p : Word) (s : State) : (raise e b p s).errbyte = b := by unfold raise; split <;> rfl
@[simp] theorem raise_errpos (e : CmdError) (b : Byte) (p : Word) (s : State) : (raise e b p s).errpos = p := by unfold raise; split <;> rfl
@[simp] theorem raise_blen (e : CmdError) (b : Byte) (p : Word) (s : State) : (raise e b p s).blen = s.blen := by unfold raise; split <;> rfl
@[simp] theorem raise_tlen (e : CmdError) (b : Byte) (p : Word) (s : State) : (raise e b p s).tlen = s.tlen := by unfold raise; split <;> rfl
@[simp] theorem raise_alen (e : CmdError) (b : Byte) (p : Word) (s : State) : (raise e b p s).alen = s.alen := by unfold raise; split <;> rfl
@[simp] theorem raise_res (e : CmdError) (b : Byte) (p : Word) (s : State) : (raise e b p s).res = s.res := by unfold raise; split <;> rfl
@[simp] theorem raise_mem (e : CmdError) (b : Byte) (p : Word) (s : State) : (raise e b p s).mem = s.mem := by unfold raise; split <;> rfl
@[simp] theorem raise_csym (e : CmdError) (h : e ≠ .alphabetError) (b : Byte) (p : Word) (s : State) :
    (raise e b p s).csym = s.csym := by simp [raise, h]
@[simp] theorem raise_cinv (e : CmdError) (h : e ≠ .alphabetError) (b : Byte) (p : Word) (s : State) :
    (raise e b p s).cinv = s.cinv := by simp [raise, h]
@[simp] theorem raise_ramEpoch (e : CmdError) (b : Byte) (p : Word) (s : State) : (raise e b p s).ramEpoch = s.ramEpoch := by unfold raise; split <;> rfl
@[simp] theorem raise_draws (e : CmdError) (h : e ≠ .alphabetError) (b : Byte) (p : Word) (s : State) :
    (raise e b p s).draws = s.draws := by simp [raise, h]
@[simp] theorem raise_pending (e : CmdError) (b : Byte) (p : Word) (s : State) : (raise e b p s).pending = s.pending := by unfold raise; split <;> rfl
@[simp] theorem raise_replies (e : CmdError) (b : Byte) (p : Word) (s : State) : (raise e b p s).replies = s.replies := by unfold raise; split <;> rfl
@[simp] theorem raise_alphabetError_avalid (b : Byte) (p : Word) (s : State) :
    (raise .alphabetError b p s).avalid = false := rfl

/-! `writeBytes` and the two commits write memory and one length register. -/

@[simp] theorem writeBytes_cfg (base : Nat) (vs : List Byte) (s : State) : (writeBytes base vs s).cfg = s.cfg := by
  induction vs generalizing base s with
  | nil => rfl
  | cons v vs ih => simp [writeBytes, ih]
@[simp] theorem writeBytes_lcmd (base : Nat) (vs : List Byte) (s : State) : (writeBytes base vs s).lcmd = s.lcmd := by
  induction vs generalizing base s with
  | nil => rfl
  | cons v vs ih => simp [writeBytes, ih]
@[simp] theorem writeBytes_busy (base : Nat) (vs : List Byte) (s : State) : (writeBytes base vs s).busy = s.busy := by
  induction vs generalizing base s with
  | nil => rfl
  | cons v vs ih => simp [writeBytes, ih]
@[simp] theorem writeBytes_done (base : Nat) (vs : List Byte) (s : State) : (writeBytes base vs s).done = s.done := by
  induction vs generalizing base s with
  | nil => rfl
  | cons v vs ih => simp [writeBytes, ih]
@[simp] theorem writeBytes_err (base : Nat) (vs : List Byte) (s : State) : (writeBytes base vs s).err = s.err := by
  induction vs generalizing base s with
  | nil => rfl
  | cons v vs ih => simp [writeBytes, ih]
@[simp] theorem writeBytes_avalid (base : Nat) (vs : List Byte) (s : State) : (writeBytes base vs s).avalid = s.avalid := by
  induction vs generalizing base s with
  | nil => rfl
  | cons v vs ih => simp [writeBytes, ih]
@[simp] theorem writeBytes_errcode (base : Nat) (vs : List Byte) (s : State) : (writeBytes base vs s).errcode = s.errcode := by
  induction vs generalizing base s with
  | nil => rfl
  | cons v vs ih => simp [writeBytes, ih]
@[simp] theorem writeBytes_errbyte (base : Nat) (vs : List Byte) (s : State) : (writeBytes base vs s).errbyte = s.errbyte := by
  induction vs generalizing base s with
  | nil => rfl
  | cons v vs ih => simp [writeBytes, ih]
@[simp] theorem writeBytes_errpos (base : Nat) (vs : List Byte) (s : State) : (writeBytes base vs s).errpos = s.errpos := by
  induction vs generalizing base s with
  | nil => rfl
  | cons v vs ih => simp [writeBytes, ih]
@[simp] theorem writeBytes_blen (base : Nat) (vs : List Byte) (s : State) : (writeBytes base vs s).blen = s.blen := by
  induction vs generalizing base s with
  | nil => rfl
  | cons v vs ih => simp [writeBytes, ih]
@[simp] theorem writeBytes_tlen (base : Nat) (vs : List Byte) (s : State) : (writeBytes base vs s).tlen = s.tlen := by
  induction vs generalizing base s with
  | nil => rfl
  | cons v vs ih => simp [writeBytes, ih]
@[simp] theorem writeBytes_alen (base : Nat) (vs : List Byte) (s : State) : (writeBytes base vs s).alen = s.alen := by
  induction vs generalizing base s with
  | nil => rfl
  | cons v vs ih => simp [writeBytes, ih]
@[simp] theorem writeBytes_res (base : Nat) (vs : List Byte) (s : State) : (writeBytes base vs s).res = s.res := by
  induction vs generalizing base s with
  | nil => rfl
  | cons v vs ih => simp [writeBytes, ih]
@[simp] theorem writeBytes_csym (base : Nat) (vs : List Byte) (s : State) : (writeBytes base vs s).csym = s.csym := by
  induction vs generalizing base s with
  | nil => rfl
  | cons v vs ih => simp [writeBytes, ih]
@[simp] theorem writeBytes_cinv (base : Nat) (vs : List Byte) (s : State) : (writeBytes base vs s).cinv = s.cinv := by
  induction vs generalizing base s with
  | nil => rfl
  | cons v vs ih => simp [writeBytes, ih]
@[simp] theorem writeBytes_ramEpoch (base : Nat) (vs : List Byte) (s : State) : (writeBytes base vs s).ramEpoch = s.ramEpoch := by
  induction vs generalizing base s with
  | nil => rfl
  | cons v vs ih => simp [writeBytes, ih]
@[simp] theorem writeBytes_draws (base : Nat) (vs : List Byte) (s : State) : (writeBytes base vs s).draws = s.draws := by
  induction vs generalizing base s with
  | nil => rfl
  | cons v vs ih => simp [writeBytes, ih]
@[simp] theorem writeBytes_pending (base : Nat) (vs : List Byte) (s : State) : (writeBytes base vs s).pending = s.pending := by
  induction vs generalizing base s with
  | nil => rfl
  | cons v vs ih => simp [writeBytes, ih]
@[simp] theorem writeBytes_replies (base : Nat) (vs : List Byte) (s : State) : (writeBytes base vs s).replies = s.replies := by
  induction vs generalizing base s with
  | nil => rfl
  | cons v vs ih => simp [writeBytes, ih]
@[simp] theorem commitText_cfg (vs : List Byte) (s : State) : (commitText vs s).cfg = s.cfg := by simp [commitText]
@[simp] theorem commitText_lcmd (vs : List Byte) (s : State) : (commitText vs s).lcmd = s.lcmd := by simp [commitText]
@[simp] theorem commitText_busy (vs : List Byte) (s : State) : (commitText vs s).busy = s.busy := by simp [commitText]
@[simp] theorem commitText_done (vs : List Byte) (s : State) : (commitText vs s).done = s.done := by simp [commitText]
@[simp] theorem commitText_err (vs : List Byte) (s : State) : (commitText vs s).err = s.err := by simp [commitText]
@[simp] theorem commitText_avalid (vs : List Byte) (s : State) : (commitText vs s).avalid = s.avalid := by simp [commitText]
@[simp] theorem commitText_errcode (vs : List Byte) (s : State) : (commitText vs s).errcode = s.errcode := by simp [commitText]
@[simp] theorem commitText_errbyte (vs : List Byte) (s : State) : (commitText vs s).errbyte = s.errbyte := by simp [commitText]
@[simp] theorem commitText_errpos (vs : List Byte) (s : State) : (commitText vs s).errpos = s.errpos := by simp [commitText]
@[simp] theorem commitText_blen (vs : List Byte) (s : State) : (commitText vs s).blen = s.blen := by simp [commitText]
@[simp] theorem commitText_tlen (vs : List Byte) (s : State) : (commitText vs s).tlen = BitVec.ofNat 16 vs.length := by simp [commitText]
@[simp] theorem commitText_alen (vs : List Byte) (s : State) : (commitText vs s).alen = s.alen := by simp [commitText]
@[simp] theorem commitText_res (vs : List Byte) (s : State) : (commitText vs s).res = s.res := by simp [commitText]
@[simp] theorem commitText_mem (vs : List Byte) (s : State) : (commitText vs s).mem = (writeBytes tbufBase vs s).mem := by simp [commitText]
@[simp] theorem commitText_csym (vs : List Byte) (s : State) : (commitText vs s).csym = s.csym := by simp [commitText]
@[simp] theorem commitText_cinv (vs : List Byte) (s : State) : (commitText vs s).cinv = s.cinv := by simp [commitText]
@[simp] theorem commitText_ramEpoch (vs : List Byte) (s : State) : (commitText vs s).ramEpoch = s.ramEpoch := by simp [commitText]
@[simp] theorem commitText_draws (vs : List Byte) (s : State) : (commitText vs s).draws = s.draws := by simp [commitText]
@[simp] theorem commitText_pending (vs : List Byte) (s : State) : (commitText vs s).pending = s.pending := by simp [commitText]
@[simp] theorem commitText_replies (vs : List Byte) (s : State) : (commitText vs s).replies = s.replies := by simp [commitText]
@[simp] theorem commitPayload_cfg (vs : List Byte) (s : State) : (commitPayload vs s).cfg = s.cfg := by simp [commitPayload]
@[simp] theorem commitPayload_lcmd (vs : List Byte) (s : State) : (commitPayload vs s).lcmd = s.lcmd := by simp [commitPayload]
@[simp] theorem commitPayload_busy (vs : List Byte) (s : State) : (commitPayload vs s).busy = s.busy := by simp [commitPayload]
@[simp] theorem commitPayload_done (vs : List Byte) (s : State) : (commitPayload vs s).done = s.done := by simp [commitPayload]
@[simp] theorem commitPayload_err (vs : List Byte) (s : State) : (commitPayload vs s).err = s.err := by simp [commitPayload]
@[simp] theorem commitPayload_avalid (vs : List Byte) (s : State) : (commitPayload vs s).avalid = s.avalid := by simp [commitPayload]
@[simp] theorem commitPayload_errcode (vs : List Byte) (s : State) : (commitPayload vs s).errcode = s.errcode := by simp [commitPayload]
@[simp] theorem commitPayload_errbyte (vs : List Byte) (s : State) : (commitPayload vs s).errbyte = s.errbyte := by simp [commitPayload]
@[simp] theorem commitPayload_errpos (vs : List Byte) (s : State) : (commitPayload vs s).errpos = s.errpos := by simp [commitPayload]
@[simp] theorem commitPayload_blen (vs : List Byte) (s : State) : (commitPayload vs s).blen = BitVec.ofNat 16 vs.length := by simp [commitPayload]
@[simp] theorem commitPayload_tlen (vs : List Byte) (s : State) : (commitPayload vs s).tlen = s.tlen := by simp [commitPayload]
@[simp] theorem commitPayload_alen (vs : List Byte) (s : State) : (commitPayload vs s).alen = s.alen := by simp [commitPayload]
@[simp] theorem commitPayload_res (vs : List Byte) (s : State) : (commitPayload vs s).res = s.res := by simp [commitPayload]
@[simp] theorem commitPayload_mem (vs : List Byte) (s : State) : (commitPayload vs s).mem = (writeBytes bbufBase vs s).mem := by simp [commitPayload]
@[simp] theorem commitPayload_csym (vs : List Byte) (s : State) : (commitPayload vs s).csym = s.csym := by simp [commitPayload]
@[simp] theorem commitPayload_cinv (vs : List Byte) (s : State) : (commitPayload vs s).cinv = s.cinv := by simp [commitPayload]
@[simp] theorem commitPayload_ramEpoch (vs : List Byte) (s : State) : (commitPayload vs s).ramEpoch = s.ramEpoch := by simp [commitPayload]
@[simp] theorem commitPayload_draws (vs : List Byte) (s : State) : (commitPayload vs s).draws = s.draws := by simp [commitPayload]
@[simp] theorem commitPayload_pending (vs : List Byte) (s : State) : (commitPayload vs s).pending = s.pending := by simp [commitPayload]
@[simp] theorem commitPayload_replies (vs : List Byte) (s : State) : (commitPayload vs s).replies = s.replies := by simp [commitPayload]

end Sys2Proof.Machine
end

