-- ==== Sys2Proof/Laws/Memory.lean ====
section
/-! SUPPORT. The laws of memory: a read after a write, the canonical form, runs of bytes. -/

namespace Sys2Proof.Machine

/-! ### The cell list -/

theorem lookupCell_insertCell (m : List Host.Cell) (off : Nat) (v : Byte) (x : Nat) :
    lookupCell (insertCell m off v) x = if x = off then some v else lookupCell m x := by
  induction m with
  | nil => simp only [insertCell, lookupCell, eq_comm]
  | cons c rest ih =>
    obtain ⟨a, w⟩ := c
    unfold insertCell
    split
    · simp only [lookupCell, eq_comm (a := x)]
    · split
      · rename_i h2
        subst h2
        simp only [lookupCell, eq_comm (a := x)]
        split <;> rfl
      · rename_i h2
        simp only [lookupCell, ih]
        by_cases hx : a = x
        · subst hx; simp [Ne.symm h2]
        · simp [hx]

theorem mem_insertCell {m : List Host.Cell} {off : Nat} {v : Byte} {c : Host.Cell}
    (h : c ∈ insertCell m off v) : c = (off, v) ∨ c ∈ m := by
  induction m with
  | nil => simpa [insertCell] using h
  | cons d rest ih =>
    obtain ⟨a, w⟩ := d
    unfold insertCell at h
    split at h
    · simpa using h
    · split at h
      · rcases List.mem_cons.1 h with h | h
        · exact .inl h
        · exact .inr (List.mem_cons_of_mem _ h)
      · rcases List.mem_cons.1 h with h | h
        · exact .inr (h ▸ List.mem_cons_self)
        · exact (ih h).imp_right (List.mem_cons_of_mem _)

/-- A write keeps the canonical form. -/
theorem insertCell_wf {m : List Host.Cell} (off : Nat) (v : Byte) (h : Memory.wf m) :
    Memory.wf (insertCell m off v) := by
  induction m with
  | nil => simp [insertCell]
  | cons d rest ih =>
    obtain ⟨a, w⟩ := d
    have hr := List.pairwise_cons.1 h
    unfold insertCell
    split
    · rename_i h1
      refine List.pairwise_cons.2 ⟨fun c hc => ?_, h⟩
      rcases List.mem_cons.1 hc with hc | hc
      · subst hc; exact h1
      · exact lt_trans h1 (hr.1 c hc)
    · split
      · rename_i h1 h2
        subst h2
        exact List.pairwise_cons.2 ⟨hr.1, hr.2⟩
      · rename_i h1 h2
        refine List.pairwise_cons.2 ⟨fun c hc => ?_, ih hr.2⟩
        rcases mem_insertCell hc with hc | hc
        · subst hc
          show a < off
          omega
        · exact hr.1 c hc

/-! ### One byte -/

/-- A byte reads as what was last written to it, and a write leaves every other byte alone. -/
theorem readByte_writeByte (s : State) (off x : Nat) (v : Byte) :
    readByte (writeByte off v s) x = if x = off then v else readByte s x := by
  by_cases hx : x = off <;> simp [readByte, lookupCell_insertCell, hx]

theorem writeByte_wf (s : State) (off : Nat) (v : Byte) (h : Memory.wf s.mem) :
    Memory.wf (writeByte off v s).mem := insertCell_wf off v h

/-- What a byte reads as depends on memory and on the free values behind it alone. -/
theorem readByte_congr {s t : State} (hm : t.mem = s.mem) (he : t.ramEpoch = s.ramEpoch) (off : Nat) :
    readByte t off = readByte s off := by simp [readByte, hm, he]

/-! ### Runs of bytes -/

theorem writeBytes_wf (s : State) (base : Nat) (vs : List Byte) (h : Memory.wf s.mem) :
    Memory.wf (writeBytes base vs s).mem := by
  induction vs generalizing base s with
  | nil => exact h
  | cons v vs ih => exact ih _ _ (writeByte_wf s base v h)

/-- What a run of stores leaves: its own bytes in `[base, base + |vs|)`, every other byte alone. -/
theorem readByte_writeBytes (s : State) (base x : Nat) (vs : List Byte) :
    readByte (writeBytes base vs s) x =
      if hx : base ≤ x ∧ x < base + vs.length then vs[x - base]'(by omega) else readByte s x := by
  induction vs generalizing base s with
  | nil => simp [writeBytes]
  | cons v vs ih =>
    rw [writeBytes, ih, readByte_writeByte]
    simp only [List.length_cons]
    by_cases h1 : x = base
    · subst h1; simp
    · by_cases h2 : base + 1 ≤ x ∧ x < base + 1 + vs.length
      · have h3 : base ≤ x ∧ x < base + (vs.length + 1) := by omega
        have h4 : x - base = (x - (base + 1)) + 1 := by omega
        simp [h2, h3, h4]
      · have h3 : ¬(base ≤ x ∧ x < base + (vs.length + 1)) := by omega
        rw [dif_neg h2, dif_neg h3, if_neg h1]

theorem readByte_writeBytes_inside (s : State) (base j : Nat) (vs : List Byte)
    (hj : j < vs.length) : readByte (writeBytes base vs s) (base + j) = vs[j] := by
  rw [readByte_writeBytes, dif_pos ⟨by omega, by omega⟩]
  simp

theorem readByte_writeBytes_outside (s : State) (base x : Nat) (vs : List Byte)
    (hx : ¬(base ≤ x ∧ x < base + vs.length)) : readByte (writeBytes base vs s) x = readByte s x := by
  rw [readByte_writeBytes, dif_neg hx]

@[simp] theorem length_readBytes (s : State) (base n : Nat) : (readBytes s base n).length = n := by
  simp [readBytes]

@[simp] theorem getElem_readBytes (s : State) (base n i : Nat) (h : i < (readBytes s base n).length) :
    (readBytes s base n)[i] = readByte s (base + i) := by simp [readBytes]

theorem readBytes_congr {s t : State} (base n : Nat) (h : ∀ i < n, readByte t (base + i) = readByte s (base + i)) :
    readBytes t base n = readBytes s base n := by
  simp only [readBytes]
  exact List.map_congr_left fun i hi => h i (List.mem_range.1 hi)

/-- A run that was stored is read back whole. -/
theorem readBytes_writeBytes (s : State) (base : Nat) (vs : List Byte) :
    readBytes (writeBytes base vs s) base vs.length = vs := by
  refine List.ext_getElem (by simp) fun i h1 h2 => ?_
  rw [getElem_readBytes, readByte_writeBytes_inside _ _ _ _ h2]

/-- A run of stores lists no offset outside its own bytes and those listed before. -/
theorem mem_writeBytes {s : State} {base : Nat} {vs : List Byte} {c : Host.Cell}
    (h : c ∈ (writeBytes base vs s).mem) : (base ≤ c.1 ∧ c.1 < base + vs.length) ∨ c ∈ s.mem := by
  induction vs generalizing base s with
  | nil => exact .inr h
  | cons v vs ih =>
    rcases ih h with h | h
    · exact .inl ⟨by omega, by simp; omega⟩
    · rcases mem_insertCell h with h | h
      · subst h; exact .inl ⟨le_refl _, by simp⟩
      · exact .inr h

/-! ### The state after reset -/

theorem reset_memory_wf : Memory.wf State.reset.mem := List.Pairwise.nil

theorem hardReset_memory_wf (s : State) : Memory.wf (hardReset s).mem := List.Pairwise.nil

end Sys2Proof.Machine
end

