-- ==== Sys2Proof/Laws/Tables.lean ====
section
/-! SUPPORT. The laws of the alphabet tables (spec/40_alphabet.md R110 to R115). -/

namespace Sys2Proof.Machine

theorem invOf_alphabetOf (sym : Vector Byte 58) (b : Byte) : invOf (alphabetOf sym) b = invEntry sym b := by
  simp [invOf, alphabetOf, invTable]

/-- A well-formed alphabet looks a byte up as R112 says. -/
theorem Alphabet.wf.invOf_eq {A : Alphabet} (h : A.wf) (b : Byte) : invOf A b = invEntry A.sym b := by
  rw [← invOf_alphabetOf]
  simp [invOf, alphabetOf, h.2]

theorem alphabetOf_wf {sym : Vector Byte 58} (h : sym.toList.Nodup) : (alphabetOf sym).wf := ⟨h, rfl⟩

theorem romAlphabet_wf {s : State} (h : s.cfg.wf) : (romAlphabet s).wf := alphabetOf_wf h.2.2

/-- An inverse-table entry is a digit whose symbol is the byte, or `SENTINEL` and the byte is no symbol. -/
theorem invEntry_cases (sym : Vector Byte 58) (b : Byte) :
    (∃ d : Digit, sym[d.val] = b ∧ invEntry sym b = BitVec.ofNat 8 d.val) ∨
      ((∀ d : Digit, sym[d.val] ≠ b) ∧ invEntry sym b = SENTINEL) := by
  unfold invEntry
  split
  · rename_i d hd
    left
    obtain ⟨hlt, hp, -⟩ := List.findIdx?_eq_some_iff_getElem.1 hd
    have hlt' : d < 58 := by simpa using hlt
    exact ⟨⟨d, hlt'⟩, by simpa using hp, rfl⟩
  · rename_i hd
    right
    refine ⟨fun d hd' => ?_, rfl⟩
    have := List.findIdx?_eq_none_iff.1 hd b (by rw [← hd']; simp)
    simp at this

theorem digit_ne_sentinel (d : Digit) : BitVec.ofNat 8 d.val ≠ SENTINEL := by
  intro h
  have := congrArg BitVec.toNat h
  have hd := d.isLt
  rw [BitVec.toNat_ofNat, Nat.mod_eq_of_lt (by omega)] at this
  simp [SENTINEL] at this
  omega

theorem toNat_digit (d : Digit) : (BitVec.ofNat 8 d.val).toNat = d.val := by
  have hd := d.isLt
  rw [BitVec.toNat_ofNat, Nat.mod_eq_of_lt (by omega)]

/-- Distinct symbols: `symbolOf` is injective (R110). -/
theorem Alphabet.wf.symbolOf_injective {A : Alphabet} (h : A.wf) : Function.Injective (symbolOf A) := by
  intro d e hde
  have := (List.Nodup.getElem_inj_iff h.1 (i := d.val) (j := e.val) (hi := by simp) (hj := by simp)).1
    (by simpa [symbolOf] using hde)
  exact Fin.ext this

/-- `digitOf_A(symbolOf_A(d)) = d` (R115), as the entry of the inverse table. -/
theorem Alphabet.wf.invOf_symbolOf {A : Alphabet} (h : A.wf) (d : Digit) :
    invOf A (symbolOf A d) = BitVec.ofNat 8 d.val := by
  rw [h.invOf_eq]
  rcases invEntry_cases A.sym (symbolOf A d) with ⟨e, he, h2⟩ | ⟨h1, -⟩
  · rw [h2, h.symbolOf_injective (show symbolOf A e = symbolOf A d from he)]
  · exact absurd rfl (h1 d)

/-- A valid byte is the symbol of its digit (R115). -/
theorem Alphabet.wf.exists_digit {A : Alphabet} (h : A.wf) {b : Byte} (hb : invOf A b ≠ SENTINEL) :
    ∃ d : Digit, symbolOf A d = b ∧ (invOf A b).toNat = d.val := by
  rw [h.invOf_eq] at *
  rcases invEntry_cases A.sym b with ⟨d, h1, h2⟩ | ⟨-, h2⟩
  · exact ⟨d, h1, by rw [h2, toNat_digit]⟩
  · exact absurd h2 hb

/-- A text has no invalid symbol exactly when every one of its bytes has a digit (R164). -/
theorem firstInvalid_eq_none_iff (A : Alphabet) (s : List Byte) :
    firstInvalid A s = none ↔ ∀ b ∈ s, invOf A b ≠ SENTINEL := by
  induction s with
  | nil => simp [firstInvalid]
  | cons b s ih =>
    by_cases h : invOf A b = SENTINEL <;> simp [firstInvalid, h, ih]

/-- The reported symbol is the one at the least invalid index (R164). -/
theorem firstInvalid_eq_some_iff (A : Alphabet) (s : List Byte) (i : Nat) (b : Byte) :
    firstInvalid A s = some (i, b) ↔
      s[i]? = some b ∧ invOf A b = SENTINEL ∧ ∀ j < i, ∀ c, s[j]? = some c → invOf A c ≠ SENTINEL := by
  induction s generalizing i with
  | nil => simp [firstInvalid]
  | cons x s ih =>
    by_cases h : invOf A x = SENTINEL
    · cases i with
      | zero => simp [firstInvalid, h]; rintro rfl; exact h
      | succ i =>
        simp only [firstInvalid, h, if_true, Option.some.injEq, Prod.mk.injEq]
        constructor
        · rintro ⟨h1, -⟩; omega
        · rintro ⟨-, -, h3⟩; exact absurd h (h3 0 (by omega) x rfl)
    · simp only [firstInvalid, h, if_false, Option.map_eq_some_iff, Prod.exists, Prod.mk.injEq]
      cases i with
      | zero => simp; rintro rfl; exact h
      | succ i =>
        constructor
        · rintro ⟨j, c, h1, h2, rfl⟩
          obtain rfl : j = i := by omega
          obtain ⟨g1, g2, g3⟩ := (ih _).1 h1
          refine ⟨by simpa using g1, g2, fun k hk c hc => ?_⟩
          cases k with
          | zero => simp at hc; exact hc ▸ h
          | succ k => exact g3 k (by omega) c (by simpa using hc)
        · rintro ⟨g1, g2, g3⟩
          exact ⟨i, b, (ih i).2 ⟨by simpa using g1, g2,
            fun j hj c hc => g3 (j + 1) (by omega) c (by simpa using hc)⟩, rfl, rfl⟩

/-- No symbol repeats an earlier one exactly when all are distinct and none is among those seen before. -/
theorem firstRepeat_eq_none_iff (seen s : List Byte) :
    firstRepeat seen s = none ↔ s.Nodup ∧ ∀ b ∈ s, b ∉ seen := by
  induction s generalizing seen with
  | nil => simp [firstRepeat]
  | cons b s ih =>
    by_cases h : b ∈ seen
    · simp [firstRepeat, h]
    · simp only [firstRepeat, h, if_false, ih, List.nodup_cons, List.mem_cons, not_or]
      constructor
      · rintro ⟨h1, h2⟩
        refine ⟨⟨fun hb => (h2 b hb).1 rfl, h1⟩, ?_⟩
        rintro c (rfl | hc)
        · exact h
        · exact (h2 c hc).2
      · rintro ⟨⟨h1, h2⟩, h3⟩
        exact ⟨h2, fun c hc => ⟨fun hcb => h1 (hcb ▸ hc), h3 c (.inr hc)⟩⟩

/-- The reported entry repeats one before it, and it is the first that does (R120). -/
theorem firstRepeat_eq_some {seen s : List Byte} {j : Nat} {b : Byte} (h : firstRepeat seen s = some (j, b)) :
    ∃ pre post, s = pre ++ b :: post ∧ j = seen.length + pre.length ∧ (b ∈ seen ∨ b ∈ pre) ∧ pre.Nodup ∧
      ∀ c ∈ pre, c ∉ seen := by
  induction s generalizing seen with
  | nil => simp [firstRepeat] at h
  | cons x s ih =>
    by_cases hx : x ∈ seen
    · simp [firstRepeat, hx] at h
      obtain ⟨rfl, rfl⟩ := h
      exact ⟨[], s, rfl, rfl, .inl hx, .nil, by simp⟩
    · simp only [firstRepeat, hx, if_false] at h
      obtain ⟨pre, post, rfl, rfl, h3, h4, h5⟩ := ih h
      refine ⟨x :: pre, post, rfl, by simp; omega, ?_, ?_, ?_⟩
      · rcases h3 with h3 | h3
        · rcases List.mem_cons.1 h3 with rfl | h3
          · exact .inr List.mem_cons_self
          · exact .inl h3
        · exact .inr (List.mem_cons_of_mem _ h3)
      · exact List.nodup_cons.2 ⟨fun hp => h5 x hp List.mem_cons_self, h4⟩
      · intro c hc
        rcases List.mem_cons.1 hc with rfl | hc
        · exact hx
        · exact fun hs => h5 c hc (List.mem_cons_of_mem _ hs)

end Sys2Proof.Machine
end

