-- ==== Sys2Proof/Laws/Exec.lean ====
section
/-! SUPPORT. What a command, a host access, an event and a step can do, said once each: the later proofs cite these and
unfold none of the meanings. -/

namespace Sys2Proof.Machine

/-- The errors a command raises, with their codes (spec/60_exceptions.md R191, R194: 3 and 4 are not among them). -/
theorem codeOf_ne_zero (e : CmdError) : codeOf e ≠ 0#8 := by cases e <;> decide

/-- The six ways a command completes without an error. -/
inductive Success (i : Instr) (s : State) : State → Prop where
  | nop (h : i = .nop) : Success i s (finish s)
  | encode (a : AlphaSel) (A : Alphabet) (h : i = .encode a) (hA : selectAlphabet a s = some A)
      (hb : s.blen.toNat ≤ s.cfg.nMax.toNat) (hl : (encText A (payload s)).length ≤ s.cfg.tMax.toNat) :
      Success i s (finish (commitText (encText A (payload s)) s))
  | decode (a : AlphaSel) (A : Alphabet) (h : i = .decode a) (hA : selectAlphabet a s = some A)
      (ht : s.tlen.toNat ≤ s.cfg.tMax.toNat) (hv : firstInvalid A (text s) = none)
      (hl : (decText A (text s)).length ≤ s.cfg.nMax.toNat) :
      Success i s (finish (commitPayload (decText A (text s)) s))
  | ldalpha (h : i = .ldalpha) (hn : s.alen = 58#8) (hr : firstRepeat [] (staged s) = none) :
      Success i s (finish (loadCustom (stagedTable s) s))
  | digitof (a : AlphaSel) (b : Byte) (A : Alphabet) (h : i = .digitof a b) (hA : selectAlphabet a s = some A) :
      Success i s (finish (setRes (invOf A b) s))
  | symbolof (a : AlphaSel) (b : Byte) (A : Alphabet) (h : i = .symbolof a b) (hA : selectAlphabet a s = some A)
      (hd : b.toNat < 58) : Success i s (finish (setRes (symbolOf A ⟨b.toNat, hd⟩) s))

/-- Every command answers a next state: an error raised, the soft reset, or a success (spec/43_control.md R182). -/
theorem exec_cases (i : Instr) (s : State) : ∃ t, exec i s = .next t ∧
    ((∃ e b p, t = raise e b p s ∧ (e = .alphabetError → i = .ldalpha) ∧
        codeOf e ∈ [1#8, 2#8, 6#8, 7#8, 8#8, 9#8]) ∨
      (i = .srst ∧ t = clearRegisters s) ∨ Success i s t) := by
  cases i with
  | nop => exact ⟨_, rfl, .inr (.inr (.nop rfl))⟩
  | srst => exact ⟨_, rfl, .inr (.inl ⟨rfl, rfl⟩)⟩
  | encode a =>
    cases hA : selectAlphabet a s with
    | none => exact ⟨raise .alphabetNotLoaded 0 0 s, by simp [exec, execEncode, hA], .inl ⟨_, _, _, rfl, by simp, by decide⟩⟩
    | some A =>
      by_cases h1 : s.cfg.nMax.toNat < s.blen.toNat
      · exact ⟨raise .badLength 0 (lengthWord s.blen) s, by simp [exec, execEncode, hA, h1],
          .inl ⟨_, _, _, rfl, by simp, by decide⟩⟩
      · by_cases h2 : s.cfg.tMax.toNat < (encText A (payload s)).length
        · exact ⟨raise .overflow 0 0 s, by simp [exec, execEncode, hA, h1, h2], .inl ⟨_, _, _, rfl, by simp, by decide⟩⟩
        · exact ⟨_, by simp [exec, execEncode, hA, h1, h2],
            .inr (.inr (.encode a A rfl hA (by omega) (by omega)))⟩
  | decode a =>
    cases hA : selectAlphabet a s with
    | none => exact ⟨raise .alphabetNotLoaded 0 0 s, by simp [exec, execDecode, hA], .inl ⟨_, _, _, rfl, by simp, by decide⟩⟩
    | some A =>
      by_cases h1 : s.cfg.tMax.toNat < s.tlen.toNat
      · exact ⟨raise .badLength 0 (lengthWord s.tlen) s, by simp [exec, execDecode, hA, h1],
          .inl ⟨_, _, _, rfl, by simp, by decide⟩⟩
      · cases hv : firstInvalid A (text s) with
        | some p => exact ⟨raise .invalidCharacter p.2 (posWord p.1) s, by simp [exec, execDecode, hA, h1, hv],
            .inl ⟨_, _, _, rfl, by simp, by decide⟩⟩
        | none =>
          by_cases h2 : s.cfg.nMax.toNat < (decText A (text s)).length
          · exact ⟨raise .overflow 0 0 s, by simp [exec, execDecode, hA, h1, hv, h2],
              .inl ⟨_, _, _, rfl, by simp, by decide⟩⟩
          · exact ⟨_, by simp [exec, execDecode, hA, h1, hv, h2],
              .inr (.inr (.decode a A rfl hA (by omega) hv (by omega)))⟩
  | ldalpha =>
    by_cases h1 : s.alen = 58#8
    · cases hr : firstRepeat [] (staged s) with
      | some p => exact ⟨raise .alphabetError p.2 (posWord p.1) s, by simp [exec, execLdalpha, h1, hr],
          .inl ⟨_, _, _, rfl, by simp, by decide⟩⟩
      | none => exact ⟨_, by simp [exec, execLdalpha, h1, hr], .inr (.inr (.ldalpha rfl h1 hr))⟩
    · exact ⟨raise .alphabetError 0 (s.alen.setWidth 32) s, by simp [exec, execLdalpha, h1],
        .inl ⟨_, _, _, rfl, by simp, by decide⟩⟩
  | digitof a b =>
    cases hA : selectAlphabet a s with
    | none => exact ⟨raise .alphabetNotLoaded 0 0 s, by simp [exec, execDigitof, hA], .inl ⟨_, _, _, rfl, by simp, by decide⟩⟩
    | some A => exact ⟨_, by simp [exec, execDigitof, hA], .inr (.inr (.digitof a b A rfl hA))⟩
  | symbolof a b =>
    cases hA : selectAlphabet a s with
    | none => exact ⟨raise .alphabetNotLoaded 0 0 s, by simp [exec, execSymbolof, hA], .inl ⟨_, _, _, rfl, by simp, by decide⟩⟩
    | some A =>
      by_cases h : b.toNat < 58
      · exact ⟨_, by simp [exec, execSymbolof, hA, h], .inr (.inr (.symbolof a b A rfl hA h))⟩
      · exact ⟨raise .digitRange b 0 s, by simp [exec, execSymbolof, hA, h], .inl ⟨_, _, _, rfl, by simp, by decide⟩⟩

/-- A completion of the engine is an illegal word's error or a command's. -/
theorem complete_cases (s : State) : ∃ t, complete s = .next t ∧
    ((∃ r, dec s.lcmd = .illegal r ∧ t = raise .illegalCommand 0 0 s) ∨
      (∃ i, dec s.lcmd = .instr i ∧ exec i s = .next t)) := by
  cases h : dec s.lcmd with
  | illegal r => exact ⟨raise .illegalCommand 0 0 s, by simp [complete, h], .inl ⟨r, rfl, rfl⟩⟩
  | instr i =>
    obtain ⟨t, ht, -⟩ := exec_cases i s
    exact ⟨t, by simp [complete, h, ht], .inr ⟨i, rfl, ht⟩⟩

/-- What one host access inside the window can do (spec/20_memory.md R63, R64; spec/70_reset_and_hazards.md R237,
R238). -/
inductive AccessEffect (a : HostAccess) (s : State) : State → Prop where
  | nothing : AccessEffect a s s
  | read (r : Reply) (h : a.isWrite = false) : AccessEffect a s (reply r s)
  | readBusy (r : Reply) (h : a.isWrite = false) (hb : s.busy = true) : AccessEffect a s (countDraw (reply r s))
  | issue (w : Word) (h : a = .write32 0x08 w) (hb : s.busy = false) : AccessEffect a s (issue w s)
  | blen (v : Half) (hb : s.busy = false) : AccessEffect a s { s with blen := v }
  | tlen (v : Half) (hb : s.busy = false) : AccessEffect a s { s with tlen := v }
  | alen (v : Byte) (hb : s.busy = false) : AccessEffect a s { s with alen := v }
  | byte (off : Nat) (v : Byte) (hb : s.busy = false) (h : isBufferByte s.cfg off = true) :
      AccessEffect a s (writeByte off v s)

theorem regAt_eq_some_iff (off : Nat) (r : Reg) : regAt off = some r ↔ off = regOffset r := by
  constructor
  · intro h
    unfold regAt at h
    split at h <;> cases h <;> rfl
  · rintro rfl
    cases r <;> rfl

theorem hostAccess_cases (a : HostAccess) (s : State) (h : a.wf = true) :
    ∃ t, hostAccess a s = .next t ∧ AccessEffect a s t := by
  have hw : a.off < WINDOW := by simpa [HostAccess.wf] using h
  unfold hostAccess
  rw [if_pos hw]
  cases a with
  | read32 off =>
    refine ⟨_, rfl, ?_⟩
    unfold hostRead32
    split
    · exact .read _ rfl
    · split
      · rename_i hb
        exact .readBusy _ rfl (by simp at hb; exact hb.1)
      · exact .read _ rfl
  | read8 off =>
    refine ⟨_, rfl, ?_⟩
    unfold hostRead8
    split
    · split
      · rename_i hb; exact .readBusy _ rfl hb
      · exact .read _ rfl
    · exact .read _ rfl
  | write32 off v =>
    refine ⟨_, rfl, ?_⟩
    unfold hostWrite32
    cases hr : regAt off with
    | none => exact .nothing
    | some r =>
      by_cases hb : s.busy = true
      · simpa [hb] using .nothing
      · have hb : s.busy = false := by simpa using hb
        simp only [hb]
        obtain rfl := (regAt_eq_some_iff _ _).1 hr
        cases r with
        | cmd => exact .issue v rfl hb
        | blen => exact .blen _ hb
        | tlen => exact .tlen _ hb
        | alen => exact .alen _ hb
        | id => exact .nothing
        | cap => exact .nothing
        | status => exact .nothing
        | errcode => exact .nothing
        | errbyte => exact .nothing
        | errpos => exact .nothing
        | res => exact .nothing
  | write8 off v =>
    refine ⟨_, rfl, ?_⟩
    unfold hostWrite8
    split
    · split
      · exact .nothing
      · rename_i h hb; exact .byte off v (by simpa using hb) h
    · exact .nothing

/-- What a step that answers a next state did (spec/00_scope.md R9). -/
theorem step_cases {s t : State} (h : step s = .next t) :
    (∃ a, nextEvent s = .access a ∧ a.wf = true ∧ AccessEffect a (takeEvent s) t) ∨
    (nextEvent s = .complete ∧ s.busy = false ∧ t = takeEvent s) ∨
    (nextEvent s = .complete ∧ s.busy = true ∧ complete (takeEvent s) = .next t) ∨
    (nextEvent s = .hardReset ∧ t = hardReset (takeEvent s)) := by
  unfold step at h
  cases he : nextEvent s with
  | access a =>
    rw [he] at h
    by_cases hw : a.wf = true
    · obtain ⟨t', ht', hc⟩ := hostAccess_cases a (takeEvent s) hw
      have : t' = t := by simpa [perform, ht'] using h
      exact .inl ⟨a, rfl, hw, this ▸ hc⟩
    · have : ¬a.off < WINDOW := by simpa [HostAccess.wf] using hw
      simp [perform, hostAccess, this] at h
  | complete =>
    rw [he] at h
    by_cases hb : s.busy = true
    · exact .inr (.inr (.inl ⟨rfl, hb, by simpa [perform, hb] using h⟩))
    · exact .inr (.inl ⟨rfl, by simpa using hb, by simpa [perform, hb, eq_comm] using h⟩)
  | hardReset =>
    rw [he] at h
    exact .inr (.inr (.inr ⟨rfl, by simpa [perform, eq_comm] using h⟩))

end Sys2Proof.Machine
end

