-- ==== Sys2Proof/Laws/Radix.lean ====
section
/-! SUPPORT. The laws of the mathematical primitives (spec/00_scope.md R10 to R14), by way of the library's
`Nat.digits`. -/

namespace Sys2Proof.Machine

/-! ### Repeated division -/

/-- The remainders are the library's digits once the bound on the recursion is large enough. -/
theorem remainders_eq_digits {b : Nat} (hb : 2 ≤ b) (fuel v : Nat) (h : v ≤ fuel) :
    remainders b fuel v = Nat.digits b v := by
  induction fuel generalizing v with
  | zero => obtain rfl : v = 0 := by omega
            simp [remainders]
  | succ n ih =>
    unfold remainders
    split
    · next hv => subst hv; simp
    · next hv =>
      have hlt : v / b < v := Nat.div_lt_self (by omega) (by omega)
      rw [Nat.digits_def' (by omega) (by omega), ih (v / b) (by omega)]

theorem digits58_eq (v : Nat) : digits58 v = (Nat.digits 58 v).reverse.map (Fin.ofNat 58) := by
  rw [digits58, remainders_eq_digits (by omega) _ _ (le_refl v)]

theorem minbytes_eq (v : Nat) : minbytes v = (Nat.digits 256 v).reverse.map (BitVec.ofNat 8) := by
  rw [minbytes, remainders_eq_digits (by omega) _ _ (le_refl v)]

@[simp] theorem digits58_zero : digits58 0 = [] := rfl

@[simp] theorem minbytes_zero : minbytes 0 = [] := rfl

theorem digits58_step {v : Nat} (h : v ≠ 0) : digits58 v = digits58 (v / 58) ++ [Fin.ofNat 58 v] := by
  rw [digits58_eq, digits58_eq, Nat.digits_def' (by omega) (by omega)]
  simp [Fin.ofNat]

theorem minbytes_step {v : Nat} (h : v ≠ 0) : minbytes v = minbytes (v / 256) ++ [BitVec.ofNat 8 v] := by
  rw [minbytes_eq, minbytes_eq, Nat.digits_def' (by omega) (by omega)]
  simp
  exact BitVec.eq_of_toNat_eq (by simp)

/-- The digits of `v`, as naturals, are the library's digits most significant first. -/
theorem map_val_digits58 (v : Nat) : (digits58 v).map Fin.val = (Nat.digits 58 v).reverse := by
  rw [digits58_eq, List.map_map]
  conv_rhs => rw [← List.map_id (Nat.digits 58 v).reverse]
  refine List.map_congr_left fun d hd => ?_
  have := Nat.digits_lt_base (by omega : 1 < 58) (List.mem_reverse.1 hd)
  simp [Fin.ofNat, Nat.mod_eq_of_lt this]

theorem map_toNat_minbytes (v : Nat) : (minbytes v).map BitVec.toNat = (Nat.digits 256 v).reverse := by
  rw [minbytes_eq, List.map_map]
  conv_rhs => rw [← List.map_id (Nat.digits 256 v).reverse]
  refine List.map_congr_left fun d hd => ?_
  have := Nat.digits_lt_base (by omega : 1 < 256) (List.mem_reverse.1 hd)
  simp [Nat.mod_eq_of_lt this]

theorem length_digits58 (v : Nat) : (digits58 v).length = (Nat.digits 58 v).length := by simp [digits58_eq]

theorem length_minbytes (v : Nat) : (minbytes v).length = (Nat.digits 256 v).length := by simp [minbytes_eq]

/-- `|digits58(V)| <= k` exactly when `58^k > V` (R11). -/
theorem length_digits58_le_iff (v k : Nat) : (digits58 v).length ≤ k ↔ v < 58 ^ k := by
  rw [length_digits58, Nat.digits_length_le_iff (by omega)]

/-- `|minbytes(V)| <= k` exactly when `256^k > V` (R13). -/
theorem length_minbytes_le_iff (v k : Nat) : (minbytes v).length ≤ k ↔ v < 256 ^ k := by
  rw [length_minbytes, Nat.digits_length_le_iff (by omega)]

/-! ### Values -/

theorem val58_append_singleton (d : List Nat) (x : Nat) : val58 (d ++ [x]) = val58 d * 58 + x := by simp [val58]

theorem val58_eq_ofDigits (d : List Nat) : val58 d = Nat.ofDigits 58 d.reverse := by
  induction d using List.reverseRecOn with
  | nil => simp [val58]
  | append_singleton d x ih => simp [val58_append_singleton, ih, Nat.ofDigits_cons]; ring

theorem val256_append (s t : List Byte) : val256 (s ++ t) = val256 s * 256 ^ t.length + val256 t := by
  induction s with
  | nil => simp [val256]
  | cons b s ih => simp [val256, ih, pow_add]; ring

theorem val256_eq_ofDigits (s : List Byte) : val256 s = Nat.ofDigits 256 (s.map BitVec.toNat).reverse := by
  induction s using List.reverseRecOn with
  | nil => simp [val256]
  | append_singleton s b ih => simp [val256_append, val256, ih, Nat.ofDigits_cons]; ring

@[simp] theorem val256_replicate_zero (k : Nat) (s : List Byte) : val256 (List.replicate k 0#8 ++ s) = val256 s := by
  induction k with
  | zero => rfl
  | succ k ih => simpa [List.replicate_succ, val256] using ih

theorem val256_lt (s : List Byte) : val256 s < 256 ^ s.length := by
  induction s with
  | nil => simp [val256]
  | cons b s ih =>
    have hb : b.toNat < 256 := b.isLt
    simp only [val256, List.length_cons, pow_succ]
    nlinarith [Nat.zero_le (256 ^ s.length)]

/-- `val58(digits58(V)) = V` (R12). -/
theorem val58_digits58 (v : Nat) : val58 ((digits58 v).map Fin.val) = v := by
  rw [map_val_digits58, val58_eq_ofDigits, List.reverse_reverse, Nat.ofDigits_digits]

/-- `val256(minbytes(V)) = V` (R13). -/
theorem val256_minbytes (v : Nat) : val256 (minbytes v) = v := by
  rw [val256_eq_ofDigits, map_toNat_minbytes, List.reverse_reverse, Nat.ofDigits_digits]

/-- A byte sequence that does not begin with 0 is the minimal representation of its value. -/
theorem minbytes_val256 (s : List Byte) (h : ∀ hne : s ≠ [], s.head hne ≠ 0#8) : minbytes (val256 s) = s := by
  rw [minbytes_eq, val256_eq_ofDigits, Nat.digits_ofDigits 256 (by omega)]
  · rw [List.reverse_reverse, List.map_map]
    conv_rhs => rw [← List.map_id s]
    exact List.map_congr_left fun b _ => by simp
  · intro d hd
    obtain ⟨b, -, rfl⟩ := List.mem_map.1 (List.mem_reverse.1 hd)
    exact b.isLt
  · intro hne
    rw [List.getLast_reverse]
    have hs : s ≠ [] := by rintro rfl; simp at hne
    have := h hs
    simp only [List.head_map]
    intro h0
    exact this (BitVec.eq_of_toNat_eq h0)

/-- A digit sequence that does not begin with 0 is the digit sequence of its value. -/
theorem digits58_val58 (d : List Digit) (h : ∀ hne : d ≠ [], d.head hne ≠ 0) :
    digits58 (val58 (d.map Fin.val)) = d := by
  rw [digits58_eq, val58_eq_ofDigits, Nat.digits_ofDigits 58 (by omega)]
  · rw [List.reverse_reverse, List.map_map]
    conv_rhs => rw [← List.map_id d]
    exact List.map_congr_left fun x _ => by simp
  · intro x hx
    obtain ⟨y, -, rfl⟩ := List.mem_map.1 (List.mem_reverse.1 hx)
    exact y.isLt
  · intro hne
    rw [List.getLast_reverse]
    have hs : d ≠ [] := by rintro rfl; simp at hne
    have := h hs
    simp only [List.head_map]
    intro h0
    exact this (Fin.ext h0)

theorem head_minbytes_ne_zero (v : Nat) (hne : minbytes v ≠ []) : (minbytes v).head hne ≠ 0#8 := by
  intro h0
  have hv : v ≠ 0 := by rintro rfl; exact hne rfl
  have hd : (Nat.digits 256 v) ≠ [] := Nat.digits_ne_nil_iff_ne_zero.2 hv
  have hl := Nat.getLast_digit_ne_zero 256 hv
  have : ((minbytes v).head hne).toNat = (Nat.digits 256 v).getLast hd := by
    rw [← List.head_map (f := BitVec.toNat) (w := by simpa using hne)]
    simp only [map_toNat_minbytes, List.head_reverse]
  rw [h0] at this
  exact hl this.symm

theorem head_digits58_ne_zero (v : Nat) (hne : digits58 v ≠ []) : (digits58 v).head hne ≠ 0 := by
  intro h0
  have hv : v ≠ 0 := by rintro rfl; exact hne rfl
  have hd : (Nat.digits 58 v) ≠ [] := Nat.digits_ne_nil_iff_ne_zero.2 hv
  have hl := Nat.getLast_digit_ne_zero 58 hv
  have : ((digits58 v).head hne).val = (Nat.digits 58 v).getLast hd := by
    rw [← List.head_map (f := Fin.val) (w := by simpa using hne)]
    simp only [map_val_digits58, List.head_reverse]
  rw [h0] at this
  exact hl this.symm

/-! ### Leading occurrences -/

theorem lead_cons_self (x : Byte) (s : List Byte) : lead (x :: s) x = lead s x + 1 := by simp [lead]

theorem lead_cons_ne {x y : Byte} (h : y ≠ x) (s : List Byte) : lead (y :: s) x = 0 := by simp [lead, h]

@[simp] theorem lead_nil (x : Byte) : lead [] x = 0 := rfl

theorem lead_le_length (s : List Byte) (x : Byte) : lead s x ≤ s.length := (List.takeWhile_prefix _).length_le

@[simp] theorem lead_replicate_append (k : Nat) (x : Byte) (s : List Byte) :
    lead (List.replicate k x ++ s) x = k + lead s x := by
  induction k with
  | zero => simp
  | succ k ih => simp [List.replicate_succ, lead_cons_self, ih]; omega

/-- A sequence is its leading run of `x` and a rest. -/
theorem replicate_lead_append (s : List Byte) (x : Byte) :
    List.replicate (lead s x) x ++ s.drop (lead s x) = s := by
  induction s with
  | nil => rfl
  | cons y s ih =>
    by_cases h : y = x
    · subst h; simpa [lead_cons_self, List.replicate_succ] using ih
    · simp [lead_cons_ne h]

/-- The rest after the leading run of `x` does not begin with `x`. -/
theorem head_drop_lead (s : List Byte) (x : Byte) (hne : s.drop (lead s x) ≠ []) :
    (s.drop (lead s x)).head hne ≠ x := by
  induction s with
  | nil => simp at hne
  | cons y s ih =>
    by_cases h : y = x
    · subst h
      simp only [lead_cons_self, List.drop_succ_cons] at hne ⊢
      exact ih hne
    · simp [lead_cons_ne h, h]

theorem lead_eq_zero_of_head_ne {s : List Byte} {x : Byte} (h : ∀ hne : s ≠ [], s.head hne ≠ x) : lead s x = 0 := by
  cases s with
  | nil => rfl
  | cons y s => exact lead_cons_ne (h (by simp)) s

end Sys2Proof.Machine
end

