-- ==== Sys2Proof/Laws/Convert.lean ====
section
/-! SUPPORT. The two conversions (spec/41_encode.md R141, spec/42_decode.md R161) over an alphabet, and what the commands
commit to the buffers. -/

namespace Sys2Proof.Machine

/-! ### Digits and symbols -/

theorem symbolOf_ne_zero {A : Alphabet} (h : A.wf) {d : Digit} (hd : d ≠ 0) : symbolOf A d ≠ symbolOf A 0 :=
  fun he => hd (h.symbolOf_injective he)

theorem invOf_symbolOf_zero {A : Alphabet} (h : A.wf) : (invOf A (symbolOf A 0)).toNat = 0 := by
  rw [h.invOf_symbolOf]; rfl

/-- Looking the symbols of digits up gives the digits back (R115). -/
theorem map_invOf_symbols {A : Alphabet} (h : A.wf) (ds : List Digit) :
    (ds.map (symbolOf A)).map (fun b => (invOf A b).toNat) = ds.map Fin.val := by
  rw [List.map_map]
  refine List.map_congr_left fun d _ => ?_
  simp only [Function.comp, h.invOf_symbolOf, toNat_digit]

/-- A text of symbols is the image of a digit sequence. -/
theorem exists_digits {A : Alphabet} {x : List Byte} (hx : ∀ b ∈ x, ∃ d : Digit, symbolOf A d = b) :
    ∃ ds : List Digit, x = ds.map (symbolOf A) := by
  induction x with
  | nil => exact ⟨[], rfl⟩
  | cons b x ih =>
    obtain ⟨d, hd⟩ := hx b (by simp)
    obtain ⟨ds, hds⟩ := ih (fun c hc => hx c (by simp [hc]))
    exact ⟨d :: ds, by simp [hd, hds]⟩

/-- A byte has no digit exactly when it is no symbol. -/
theorem digitOf_eq_none_iff {A : Alphabet} (h : A.wf) (b : Byte) : digitOf A b = none ↔ b ∉ A.sym.toList := by
  unfold digitOf
  rw [h.invOf_eq]
  rcases invEntry_cases A.sym b with ⟨d, h1, h2⟩ | ⟨h1, h2⟩
  · rw [if_neg (h2 ▸ digit_ne_sentinel d)]
    simp [← h1]
  · rw [if_pos h2]
    simp only [true_iff]
    intro hm
    obtain ⟨i, hi, hb⟩ := List.getElem_of_mem hm
    exact h1 ⟨i, by simpa using hi⟩ (by simpa using hb)

/-! ### Values -/

/-- Leading zero digits add nothing to a value (R12). -/
theorem val58_replicate_zero (k : Nat) (d : List Nat) : val58 (List.replicate k 0 ++ d) = val58 d := by
  have : val58 (List.replicate k 0) = 0 := by
    induction k with
    | zero => rfl
    | succ k ih => rw [List.replicate_succ', val58_append_singleton, ih]
  unfold val58 at *
  rw [List.foldl_append, this]

theorem val58_lt (d : List Nat) (h : ∀ x ∈ d, x < 58) : val58 d < 58 ^ d.length := by
  rw [val58_eq_ofDigits]
  have := Nat.ofDigits_lt_base_pow_length (b := 58) (l := d.reverse) (by omega) (by simpa using h)
  simpa using this

/-- A digit sequence that does not begin with 0 has at least its leading place's weight. -/
theorem pow_le_val58_cons (d : Nat) (ds : List Nat) (h : d ≠ 0) : 58 ^ ds.length ≤ val58 (d :: ds) := by
  induction ds using List.reverseRecOn with
  | nil => simp [val58]; omega
  | append_singleton ds x ih =>
    rw [← List.cons_append, val58_append_singleton, List.length_append, List.length_singleton, pow_succ]
    omega

theorem val256_drop_lead (b : List Byte) : val256 (b.drop (lead b 0#8)) = val256 b := by
  conv_rhs => rw [← replicate_lead_append b 0#8]
  rw [val256_replicate_zero]

theorem val256_cons_ne_zero {b : Byte} {rest : List Byte} (h : b ≠ 0#8) : val256 (b :: rest) ≠ 0 := by
  have h1 : 0 < b.toNat := Nat.pos_of_ne_zero fun h0 => h (BitVec.eq_of_toNat_eq h0)
  have h2 : 0 < b.toNat * 256 ^ rest.length := by positivity
  simp only [val256]
  omega

/-- The digits of a value do not begin with the zero-digit symbol. -/
theorem lead_digits58_symbols {A : Alphabet} (h : A.wf) (v : Nat) :
    lead ((digits58 v).map (symbolOf A)) (symbolOf A 0) = 0 := by
  refine lead_eq_zero_of_head_ne fun hne => ?_
  rw [List.head_map]
  exact symbolOf_ne_zero h (head_digits58_ne_zero v _)

/-- The value of R161 is that of the symbols after the leading zero-digit ones. -/
theorem decText_eq_drop {A : Alphabet} (h : A.wf) (x : List Byte) :
    decText A x = List.replicate (lead x (symbolOf A 0)) 0#8 ++
      minbytes (val58 ((x.drop (lead x (symbolOf A 0))).map (fun b => (invOf A b).toNat))) := by
  rw [decText]
  congr 2
  conv_lhs => rw [← replicate_lead_append x (symbolOf A 0)]
  rw [List.map_append, List.map_replicate, invOf_symbolOf_zero h, val58_replicate_zero]

/-! ### What the commands commit -/

theorem text_commitText (e : List Byte) (s : State) (h : e.length < 65536) : text (finish (commitText e s)) = e := by
  have : readBytes (writeBytes tbufBase e s) tbufBase e.length = e := readBytes_writeBytes s tbufBase e
  show readBytes (writeBytes tbufBase e s) tbufBase (BitVec.ofNat 16 e.length).toNat = e
  rw [BitVec.toNat_ofNat, Nat.mod_eq_of_lt h, this]

theorem payload_commitPayload (r : List Byte) (s : State) (h : r.length < 65536) :
    payload (finish (commitPayload r s)) = r := by
  have : readBytes (writeBytes bbufBase r s) bbufBase r.length = r := readBytes_writeBytes s bbufBase r
  show readBytes (writeBytes bbufBase r s) bbufBase (BitVec.ofNat 16 r.length).toNat = r
  rw [BitVec.toNat_ofNat, Nat.mod_eq_of_lt h, this]

/-! ### The staged symbols -/

theorem stagedTable_getElem (s : State) (d : Digit) : (stagedTable s)[d.val] = readByte s (0x40 + d.val) := by
  show (staged s)[d.val] = _
  exact getElem_readBytes s astgBase 58 d.val (by simp)

theorem staged_getElem? (s : State) (j : Nat) (h : j < 58) : (staged s)[j]? = some (readByte s (0x40 + j)) := by
  rw [List.getElem?_eq_getElem (by simpa [staged] using h)]
  exact congrArg _ (getElem_readBytes s astgBase 58 j _)

theorem staged_nodup {s : State}
    (h : ∀ i j, i < j → j < 58 → readByte s (0x40 + i) ≠ readByte s (0x40 + j)) : (staged s).Nodup := by
  rw [List.nodup_iff_pairwise_ne, List.pairwise_iff_getElem]
  intro i j hi hj hij
  have hj' : j < 58 := by simpa [staged] using hj
  have e1 : (staged s)[i] = readByte s (0x40 + i) := getElem_readBytes s astgBase 58 i _
  have e2 : (staged s)[j] = readByte s (0x40 + j) := getElem_readBytes s astgBase 58 j _
  intro heq
  exact h i j hij hj' (e1.symm.trans (heq.trans e2))

end Sys2Proof.Machine
end

