-- ==== Sys2Proof/Laws/Datapath.lean ====
section
/-! SUPPORT. What one pass of each reference datapath computes (spec/41_encode.md R148, R149; spec/42_decode.md R168,
R169). -/

namespace Sys2Proof.Machine

/-- A division pass of R148: as many quotient bytes, a remainder below 58, and the value kept. -/
theorem dividePass_spec (acc : List Byte) (rem : Nat) (h : rem < 58) :
    (dividePass rem acc).1.length = acc.length ∧ (dividePass rem acc).2 < 58 ∧
      val256 (dividePass rem acc).1 * 58 + (dividePass rem acc).2 = rem * 256 ^ acc.length + val256 acc := by
  induction acc generalizing rem with
  | nil => simp [dividePass, val256, h]
  | cons b rest ih =>
    have hb : b.toNat < 256 := b.isLt
    obtain ⟨h1, h2, h3⟩ := ih ((rem * 256 + b.toNat) % 58) (Nat.mod_lt _ (by omega))
    simp only [dividePass, List.length_cons, val256, h1]
    refine ⟨trivial, h2, ?_⟩
    have hq : (BitVec.ofNat 8 ((rem * 256 + b.toNat) / 58)).toNat = (rem * 256 + b.toNat) / 58 := by
      rw [BitVec.toNat_ofNat, Nat.mod_eq_of_lt (by omega)]
    rw [hq, pow_succ]
    have hdm := Nat.div_add_mod (rem * 256 + b.toNat) 58
    generalize (rem * 256 + b.toNat) / 58 = q at *
    generalize hr : (rem * 256 + b.toNat) % 58 = r at *
    generalize 256 ^ rest.length = P at *
    calc _ = q * 58 * P + (val256 (dividePass r rest).1 * 58 + (dividePass r rest).2) := by ring
      _ = (58 * q + r) * P + val256 rest := by rw [h3]; ring
      _ = _ := by rw [hdm]; ring

/-- Moving `start` past the zero bytes keeps the value. -/
theorem val256_skipZeros (acc : List Byte) : val256 (skipZeros acc) = val256 acc := by
  induction acc with
  | nil => rfl
  | cons b acc ih =>
    by_cases h : b = 0#8
    · subst h; simpa [skipZeros, val256] using ih
    · simp [skipZeros, h]

theorem head_skipZeros_ne_zero (acc : List Byte) (hne : skipZeros acc ≠ []) : (skipZeros acc).head hne ≠ 0#8 := by
  have := List.head_dropWhile_not (p := fun b : Byte => b == 0#8) hne
  simpa [skipZeros] using this

/-- The value of an accumulator held least significant byte first. -/
theorem val256_reverse_cons (b : Byte) (acc : List Byte) :
    val256 (b :: acc).reverse = b.toNat + 256 * val256 acc.reverse := by
  simp [val256_append, val256]
  ring

/-- A multiplication pass of R168: as many bytes, a carry below 58, and the value `ACC * 58 + carry`. -/
theorem multiplyPass_spec (acc : List Byte) (c : Nat) (h : c < 58) :
    (multiplyPass c acc).1.length = acc.length ∧ (multiplyPass c acc).2 < 58 ∧
      val256 (multiplyPass c acc).1.reverse + (multiplyPass c acc).2 * 256 ^ acc.length =
        val256 acc.reverse * 58 + c := by
  induction acc generalizing c with
  | nil => simp [multiplyPass, val256, h]
  | cons b rest ih =>
    have hb : b.toNat < 256 := b.isLt
    obtain ⟨h1, h2, h3⟩ := ih ((b.toNat * 58 + c) / 256) (by omega)
    simp only [multiplyPass, List.length_cons, h1, val256_reverse_cons]
    refine ⟨trivial, h2, ?_⟩
    have hq : (BitVec.ofNat 8 ((b.toNat * 58 + c) % 256)).toNat = (b.toNat * 58 + c) % 256 := by
      rw [BitVec.toNat_ofNat]; omega
    rw [hq, pow_succ]
    have hdm := Nat.div_add_mod (b.toNat * 58 + c) 256
    generalize (b.toNat * 58 + c) / 256 = q at *
    generalize hr : (b.toNat * 58 + c) % 256 = r at *
    generalize 256 ^ rest.length = P at *
    calc _ = r + 256 * (val256 (multiplyPass q rest).1.reverse + (multiplyPass q rest).2 * P) := by ring
      _ = 256 * q + r + 256 * (val256 rest.reverse * 58) := by rw [h3]; ring
      _ = _ := by rw [hdm]; ring

end Sys2Proof.Machine
end

