-- ==== Sys2Proof/Laws/Decode.lean ====
section
/-! SUPPORT. The laws of the command word's field layout (spec/30_encoding.md R90). -/

namespace Sys2Proof

/-- A bit field as a number. -/
theorem toNat_field (w : Word) (lo len : Nat) : (w.extractLsb' lo len).toNat = w.toNat / 2 ^ lo % 2 ^ len := by
  rw [BitVec.extractLsb'_toNat, Nat.shiftRight_eq_div_pow]

/-- The five fields of a word as numbers (R90). -/
theorem fieldsOf_toNat (w : Word) :
    (fieldsOf w).op.toNat = w.toNat % 256 ∧ (fieldsOf w).asel.toNat = w.toNat / 256 % 2 ∧
      (fieldsOf w).rsv0.toNat = w.toNat / 512 % 128 ∧ (fieldsOf w).imm8.toNat = w.toNat / 65536 % 256 ∧
      (fieldsOf w).rsv1.toNat = w.toNat / 16777216 := by
  have h := w.isLt
  refine ⟨?_, toNat_field w 8 1, toNat_field w 9 7, toNat_field w 16 8, ?_⟩
  · rw [fieldsOf, toNat_field]
    norm_num
  · rw [fieldsOf, toNat_field]
    omega

theorem packFields_toNat (f : CommandFields) :
    (packFields f).toNat = f.op.toNat + f.asel.toNat * 256 + f.rsv0.toNat * 512 + f.imm8.toNat * 65536 +
      f.rsv1.toNat * 16777216 := by
  have h1 : f.op.toNat < 256 := f.op.isLt
  have h2 : f.asel.toNat < 2 := f.asel.isLt
  have h3 : f.rsv0.toNat < 128 := f.rsv0.isLt
  have h4 : f.imm8.toNat < 256 := f.imm8.isLt
  have h5 : f.rsv1.toNat < 256 := f.rsv1.isLt
  rw [packFields, BitVec.toNat_ofNat]
  exact Nat.mod_eq_of_lt (by omega)

/-- Fields that agree as numbers are the same fields. -/
theorem fields_ext {f g : CommandFields} (h1 : f.op.toNat = g.op.toNat) (h2 : f.asel.toNat = g.asel.toNat)
    (h3 : f.rsv0.toNat = g.rsv0.toNat) (h4 : f.imm8.toNat = g.imm8.toNat) (h5 : f.rsv1.toNat = g.rsv1.toNat) :
    f = g := by
  obtain ⟨a, b, c, d, e⟩ := f
  obtain ⟨a', b', c', d', e'⟩ := g
  simp only [CommandFields.mk.injEq]
  exact ⟨BitVec.eq_of_toNat_eq h1, BitVec.eq_of_toNat_eq h2, BitVec.eq_of_toNat_eq h3, BitVec.eq_of_toNat_eq h4,
    BitVec.eq_of_toNat_eq h5⟩

/-- A word is determined by its fields, and every choice of fields is a word's. -/
@[simp] theorem fieldsOf_packFields (f : CommandFields) : fieldsOf (packFields f) = f := by
  have h1 : f.op.toNat < 256 := f.op.isLt
  have h2 : f.asel.toNat < 2 := f.asel.isLt
  have h3 : f.rsv0.toNat < 128 := f.rsv0.isLt
  have h4 : f.imm8.toNat < 256 := f.imm8.isLt
  have h5 : f.rsv1.toNat < 256 := f.rsv1.isLt
  obtain ⟨g1, g2, g3, g4, g5⟩ := fieldsOf_toNat (packFields f)
  rw [packFields_toNat] at g1 g2 g3 g4 g5
  exact fields_ext (by omega) (by omega) (by omega) (by omega) (by omega)

@[simp] theorem packFields_fieldsOf (w : Word) : packFields (fieldsOf w) = w := by
  have h : w.toNat < 4294967296 := w.isLt
  apply BitVec.eq_of_toNat_eq
  obtain ⟨g1, g2, g3, g4, g5⟩ := fieldsOf_toNat w
  rw [packFields_toNat]
  omega

/-- The fields of a masked word are the masked fields, which is what a comparison of `w & mask` with `match` tests
(R92). -/
theorem fieldsOf_and (w m : Word) : fieldsOf (w &&& m) =
    { op := (fieldsOf w).op &&& (fieldsOf m).op, asel := (fieldsOf w).asel &&& (fieldsOf m).asel,
      rsv0 := (fieldsOf w).rsv0 &&& (fieldsOf m).rsv0, imm8 := (fieldsOf w).imm8 &&& (fieldsOf m).imm8,
      rsv1 := (fieldsOf w).rsv1 &&& (fieldsOf m).rsv1 } := by
  simp only [fieldsOf, BitVec.extractLsb'_and]

/-- Two words are equal exactly when their fields are. -/
theorem eq_iff_fieldsOf_eq (v w : Word) : v = w ↔ fieldsOf v = fieldsOf w :=
  ⟨fun h => h ▸ rfl, fun h => by rw [← packFields_fieldsOf v, h, packFields_fieldsOf]⟩

@[simp] theorem aselOfBit_bitOfAsel (a : AlphaSel) : aselOfBit (bitOfAsel a) = a := by cases a <;> rfl

@[simp] theorem bitOfAsel_aselOfBit (b : BitVec 1) : bitOfAsel (aselOfBit b) = b := by revert b; decide

/-- A command the decoder answers is the one whose fields the word has (R95). -/
theorem encFields_of_decFields {f : CommandFields} {i : Instr} (h : decFields f = .instr i) : encFields i = f := by
  obtain ⟨op, asel, r0, imm, r1⟩ := f
  unfold decFields at h
  simp only at h
  split at h
  · cases h
  rename_i h0
  push Not at h0
  obtain ⟨rfl, rfl⟩ := h0
  repeat' split at h
  all_goals first | (cases h; done) | (injection h with h; subst h; simp_all [encFields])

end Sys2Proof
end

