-- ==== Sys2Proof/Laws/Host.lean ====
section
/-! SUPPORT. The host port's register map and buffer windows (spec/10_state.md R28, spec/20_memory.md R63). -/

namespace Sys2Proof.Machine

/-- An offset that is none of the eleven has no register. -/
theorem regAt_eq_none {off : Nat} (h : off ∉ REGISTER_OFFSETS) : regAt off = none := by
  cases hr : regAt off with
  | none => rfl
  | some r =>
    exfalso
    obtain rfl := (regAt_eq_some_iff _ _).1 hr
    revert h
    cases r <;> decide

/-- The buffer windows of R63. -/
theorem isBufferByte_iff (c : Config) (off : Nat) : isBufferByte c off = true ↔
    ((0x40 ≤ off ∧ off < 0x80) ∨ (0x10000 ≤ off ∧ off < 0x10000 + c.nMax.toNat) ∨
      (0x20000 ≤ off ∧ off < 0x20000 + c.tMax.toNat)) := decide_eq_true_iff

/-- The number a register reads as, by its offset (R28). -/
theorem idleRegisterValue_regOffset (s : State) (r : Reg) :
    idleRegisterValue s (regOffset r) = some (readReg r s).toNat := by
  have h1 := s.cfg.nMax.isLt
  have h2 := s.cfg.tMax.isLt
  cases r
  case status =>
    cases h1 : s.busy <;> cases h2 : s.done <;> cases h3 : s.err <;> cases h4 : s.avalid <;>
      simp [idleRegisterValue, regOffset, readReg, statusWord, h1, h2, h3, h4]
  case cap => simp [idleRegisterValue, regOffset, readReg]; omega
  all_goals simp [idleRegisterValue, regOffset, readReg, ID_VALUE]
  all_goals omega

/-- Only the eleven register offsets have a value. -/
theorem regAt_of_idleRegisterValue {s : State} {off v : Nat} (h : idleRegisterValue s off = some v) :
    ∃ r, regAt off = some r := by
  by_contra hne
  have : off ∉ REGISTER_OFFSETS := by
    intro hm
    simp [REGISTER_OFFSETS] at hm
    rcases hm with rfl | rfl | rfl | rfl | rfl | rfl | rfl | rfl | rfl | rfl | rfl <;> exact hne ⟨_, rfl⟩
  simp [REGISTER_OFFSETS] at this
  simp [idleRegisterValue, this] at h

/-- A 32-bit read of a register while idle (R63). -/
theorem hostRead32_idle {s : State} {off : Nat} {r : Reg} (hb : s.busy = false) (hr : regAt off = some r) :
    hostRead32 off s = reply (.word (readReg r s)) s := by
  simp [hostRead32, hr, hb]

end Sys2Proof.Machine
end

