-- ==== Sys2Proof/Laws/PerInstr.lean ====
section
/-! SUPPORT. The statements made of every command, one lemma per constructor. -/

namespace Sys2Proof.Laws

/-- The word of a command lies in the command's row of the opcode map (spec/30_encoding.md R92). -/
def TableRow.Statement (i : Instr) : Prop := encode i &&& tableMask i = tableMatch i

namespace TableRow

/-- The fields of the masks of R92, and a mask's effect on a field. -/
theorem row_of_fields {i : Instr} {f g : CommandFields} (hm : fieldsOf (tableMask i) = f)
    (ht : fieldsOf (tableMatch i) = g)
    (h : ({ op := (encFields i).op &&& f.op, asel := (encFields i).asel &&& f.asel,
            rsv0 := (encFields i).rsv0 &&& f.rsv0, imm8 := (encFields i).imm8 &&& f.imm8,
            rsv1 := (encFields i).rsv1 &&& f.rsv1 } : CommandFields) = g) : Statement i := by
  unfold Statement
  rw [eq_iff_fieldsOf_eq, fieldsOf_and, encode, fieldsOf_packFields, hm, ht, h]

theorem nop : Statement .nop := by unfold Statement; decide

theorem encode (a : AlphaSel) : Statement (.encode a) := by cases a <;> (unfold Statement; decide)

theorem decode (a : AlphaSel) : Statement (.decode a) := by cases a <;> (unfold Statement; decide)

theorem ldalpha : Statement .ldalpha := by unfold Statement; decide

theorem digitof (a : AlphaSel) (b : Byte) : Statement (.digitof a b) := by
  refine row_of_fields (f := ⟨0xFF, 0, 0x7F, 0, 0xFF⟩) (g := ⟨0x04, 0, 0, 0, 0⟩) ?_ ?_ ?_
  · show fieldsOf 0xFF00FEFF#32 = _; decide
  · show fieldsOf 0x00000004#32 = _; decide
  · simp [encFields]

theorem symbolof (a : AlphaSel) (d : Byte) : Statement (.symbolof a d) := by
  refine row_of_fields (f := ⟨0xFF, 0, 0x7F, 0, 0xFF⟩) (g := ⟨0x05, 0, 0, 0, 0⟩) ?_ ?_ ?_
  · show fieldsOf 0xFF00FEFF#32 = _; decide
  · show fieldsOf 0x00000005#32 = _; decide
  · simp [encFields]

theorem srst : Statement .srst := by unfold Statement; decide

end TableRow

end Sys2Proof.Laws
end

