-- ==== Sys2Proof/Laws/Run.lean ====
section
/-! SUPPORT. Runs of several steps, and the induction every claim about all steps goes through. -/

namespace Sys2Proof.Machine

theorem run_zero (s : State) : Host.Core.run Sys2Proof.core 0 s = .next s := rfl

/-- One step of any machine, then the rest of the run. -/
theorem core_run_succ (M : Host.Core) (n : Nat) {s t : M.State} (h : M.step s = .next t) :
    M.run (n + 1) s = M.run n t := by simp only [Host.Core.run, h]

/-- One step, then the rest of the run. -/
theorem run_succ (n : Nat) {s t : State} (h : step s = .next t) :
    Host.Core.run Sys2Proof.core (n + 1) s = Host.Core.run Sys2Proof.core n t := core_run_succ Sys2Proof.core n h

/-- A run that goes on past a step took that step. -/
theorem core_step_of_run (M : Host.Core) (n : Nat) {s t : M.State} (h : M.run (n + 1) s = .next t) :
    ∃ u, M.step s = .next u ∧ M.run n u = .next t := by
  cases hst : M.step s with
  | next u => exact ⟨u, rfl, by rw [← core_run_succ M n hst]; exact h⟩
  | fault r => simp only [Host.Core.run, hst] at h; cases h
  | refused r => simp only [Host.Core.run, hst] at h; cases h

theorem step_of_run (n : Nat) {s t : State} (h : Host.Core.run Sys2Proof.core (n + 1) s = .next t) :
    ∃ u : State, step s = .next u ∧ Host.Core.run Sys2Proof.core n u = .next t := core_step_of_run Sys2Proof.core n h

/-- A property that every step keeps holds after every run. -/
theorem run_induction {P : State → Prop} (hstep : ∀ s t, P s → step s = .next t → P t) (n : Nat) {s t : State}
    (hs : P s) (h : Host.Core.run Sys2Proof.core n s = .next t) : P t := by
  induction n generalizing s with
  | zero => rw [run_zero] at h; cases h; exact hs
  | succ n ih =>
    obtain ⟨u, hu, hr⟩ := step_of_run n h
    exact ih (hstep s u hs hu) hr

end Sys2Proof.Machine
end

