-- ==== Sys2Proof/Laws/Step.lean ====
section
/-! SUPPORT. What comes next and what it does: the head of the pending events, the engine's completion, accesses while
busy, and that a step answers a next state. -/

namespace Sys2Proof.Machine

/-- Nothing pending, or the engine's turn: `Complete` is next (spec/00_scope.md R9). -/
theorem nextEvent_engine {s : State} (h : s.pending = [] ∨ s.pending.head? = some .complete) :
    nextEvent s = .complete := by
  unfold nextEvent
  rcases h with h | h
  · simp [h]
  · cases hp : s.pending <;> simp_all

/-- A step on a pending access is that access, taken out of the pending events. -/
theorem step_access {s : State} {a : HostAccess} {rest : List Event} (hp : s.pending = .access a :: rest) :
    step s = hostAccess a { s with pending := rest } := by
  simp [step, nextEvent, takeEvent, perform, hp]

/-- A step whose event is the engine's, while busy, is the completion. -/
theorem step_complete {s : State} (hb : s.busy = true) (hn : nextEvent s = .complete) :
    step s = complete (takeEvent s) := by
  simp [step, hn, perform, hb]

/-- What a host access inside the window leaves alone (spec/20_memory.md R63, R68). -/
theorem AccessEffect.frame {a : HostAccess} {s t : State} (h : AccessEffect a s t) :
    t.cfg = s.cfg ∧ t.pending = s.pending ∧ SameCustom s t ∧ (s.busy = true → t.busy = true ∧ t.lcmd = s.lcmd) ∧
      (s.busy = false → t.busy = true → ∃ w, a = .write32 0x08 w ∧ t.lcmd = w) ∧
      (t.lcmd ≠ s.lcmd → s.busy = false ∧ ∃ w, a = .write32 0x08 w ∧ t.lcmd = w) := by
  cases h with
  | issue w hw hb => exact ⟨rfl, rfl, ⟨rfl, rfl, rfl⟩, by simp [hb], fun _ _ => ⟨w, hw, rfl⟩, fun _ => ⟨hb, w, hw, rfl⟩⟩
  | _ => exact ⟨rfl, rfl, ⟨rfl, rfl, rfl⟩, by simp_all, by simp_all, fun h => absurd rfl h⟩

/-- An access while busy changes nothing of the block: it draws free values and answers reads (R237, R238). -/
theorem hostAccess_busy {s : State} {a : HostAccess} (hb : s.busy = true) (hw : a.wf = true) :
    ∃ n rs, hostAccess a s = .next { s with draws := s.draws + n, replies := rs ++ s.replies } := by
  obtain ⟨t, ht, hc⟩ := hostAccess_cases a s hw
  rw [ht]
  cases hc with
  | nothing => exact ⟨0, [], rfl⟩
  | read r => exact ⟨0, [r], rfl⟩
  | readBusy r => exact ⟨1, [r], rfl⟩
  | issue w _ h => simp_all
  | blen w h => simp_all
  | tlen w h => simp_all
  | alen w h => simp_all
  | byte _ _ h => simp_all

/-- What a completion leaves, whatever the word (spec/43_control.md R182, R186, spec/40_alphabet.md R117). -/
theorem complete_frame {s t : State} (h : complete s = .next t) :
    t.cfg = s.cfg ∧ t.busy = false ∧ t.pending = s.pending ∧
      (SameCustom s t ∨ dec s.lcmd = .instr .ldalpha ∨ dec s.lcmd = .instr .srst) ∧
      (t.lcmd = s.lcmd ∨ (dec s.lcmd = .instr .srst ∧ t.lcmd = 0#32)) := by
  obtain ⟨t', ht', hcc⟩ := complete_cases s
  rw [h] at ht'
  cases ht'
  rcases hcc with ⟨r, -, rfl⟩ | ⟨i, hd, hi⟩
  · exact ⟨by simp, by simp, by simp, .inl ⟨by simp, by simp, by simp⟩, .inl (by simp)⟩
  · obtain ⟨t', ht', hc⟩ := exec_cases i s
    rw [hi] at ht'
    cases ht'
    rcases hc with ⟨e, b, p, rfl, h1, -⟩ | ⟨rfl, rfl⟩ | hs
    · refine ⟨by simp, by simp, by simp, ?_, .inl (by simp)⟩
      by_cases he : e = .alphabetError
      · exact .inr (.inl (h1 he ▸ hd))
      · exact .inl ⟨by simp [he], by simp [he], by simp [he]⟩
    · exact ⟨by simp, by simp, by simp, .inr (.inr hd), .inr ⟨hd, by simp⟩⟩
    · cases hs with
      | ldalpha hi' => exact ⟨by simp, by simp, by simp, .inr (.inl (hi' ▸ hd)), .inl (by simp)⟩
      | _ => exact ⟨by simp, by simp, by simp, .inl ⟨by simp, by simp, by simp⟩, .inl (by simp)⟩

/-- Taking an event out of the pending ones leaves the invariant alone. -/
theorem Inv.takeEvent {s : State} (h : Inv s) : Inv (takeEvent s) :=
  ⟨h.config, h.status, h.report, h.custom, h.memory, h.cells, h.idle⟩

/-- Under the invariant a selected alphabet is an alphabet in the sense of R110. -/
theorem Inv.selected_wf {s : State} {a : AlphaSel} {A : Alphabet} (h : Inv s) (hA : selectAlphabet a s = some A) :
    A.wf := by
  cases a with
  | rom => cases hA; exact romAlphabet_wf h.config
  | cust =>
    simp only [selectAlphabet] at hA
    split at hA
    · rename_i hv; cases hA; exact h.custom hv
    · cases hA

end Sys2Proof.Machine
end

