-- ==== Sys2Proof/Tests/Slice0.lean ====
section
/-! SUPPORT. The model's own tests. Expected values come from the spec: the encodings of spec/30_encoding.md R90 to R98,
the tables of spec/40_alphabet.md R113, R114 and the vectors of spec/95_test_vectors.md, named in each docstring. The
second half shows, for every statement with hypotheses, a state and operands that meet them, clause by clause. -/

namespace Sys2Proof.Tests

open Sys2Proof Sys2Proof.Machine

/-! ### Helpers -/

/-- The state after one step, where the step has one. -/
def after (s : State) : Option State :=
  match step s with
  | .next t => some t
  | .fault _ => none
  | .refused _ => none

/-- The state after the engine has performed one command word, issued from `s`. -/
def run (s : State) (w : Nat) : Option State := after (s.withFetchWord 32 w)

/-- The state after one host access. -/
def host (s : State) (a : HostAccess) : Option State := after { s with pending := [.access a] }

/-- The reset state with bytes written from an offset on. -/
def staging (off : Nat) (bytes : List Byte) : State := writeBytes off bytes State.reset

/-- `hello world` (V1). -/
def hello : List Byte := [0x68#8, 0x65#8, 0x6C#8, 0x6C#8, 0x6F#8, 0x20#8, 0x77#8, 0x6F#8, 0x72#8, 0x6C#8, 0x64#8]

/-- `StV1DL6CwTryKyV` (V1). -/
def helloText : List Byte :=
  [0x53#8, 0x74#8, 0x56#8, 0x31#8, 0x44#8, 0x4C#8, 0x36#8, 0x43#8, 0x77#8, 0x54#8, 0x72#8, 0x79#8, 0x4B#8, 0x79#8, 0x56#8]

/-- The identity alphabet of A8. -/
def identitySyms : Vector Byte 58 := ⟨⟨(List.range 58).map (fun n => BitVec.ofNat 8 n)⟩, by simp⟩

/-- The reset state with the identity alphabet loaded. -/
def loaded : State := { State.reset with avalid := true, csym := identitySyms, cinv := invTable identitySyms }

/-- The reset state with the identity alphabet staged and counted (A8). -/
def stagedIdentity : State := { staging 0x40 identitySyms.toList with alen := 58#8 }

/-- The staging of P4: `ROM_ALPHA` with its last byte replaced by 0x34. -/
def stagedDuplicate : State := { staging 0x40 (romAlphaBytes.take 57 ++ [0x34#8]) with alen := 58#8 }

/-- A busy state with this word latched. -/
def busyWith (w : Word) : State := { State.reset with busy := true, lcmd := w }

/-! ### WellFormed refuses -/

/-- A reserved opcode (R96). -/
theorem test_wf_refuses_reserved_opcode : CommandFields.wf ⟨0x07#8, 0#1, 0#7, 0#8, 0#8⟩ = false := by decide

/-- A non-zero `RSV0` (R96). -/
theorem test_wf_refuses_rsv0 : CommandFields.wf ⟨0x01#8, 0#1, 1#7, 0#8, 0#8⟩ = false := by decide

/-- A non-zero `RSV1` (R96). -/
theorem test_wf_refuses_rsv1 : CommandFields.wf ⟨0x04#8, 0#1, 0#7, 0#8, 1#8⟩ = false := by decide

/-- `ASEL` on format `Z` (R91). -/
theorem test_wf_refuses_asel_on_Z : CommandFields.wf ⟨0x03#8, 1#1, 0#7, 0#8, 0#8⟩ = false := by decide

/-- `IMM8` on format `Z` (R91). -/
theorem test_wf_refuses_imm8_on_Z : CommandFields.wf ⟨0x06#8, 0#1, 0#7, 1#8, 0#8⟩ = false := by decide

/-- `IMM8` on format `S` (R91). -/
theorem test_wf_refuses_imm8_on_S : CommandFields.wf ⟨0x01#8, 0#1, 0#7, 1#8, 0#8⟩ = false := by decide

/-- An access past the window (R62). -/
theorem test_wf_refuses_outside_window : (HostAccess.read8 0x30000).wf = false := by decide

/-! ### Decoding and encoding: words written out from R90 (`RSV1` `IMM8` `RSV0` `ASEL` `OP`) -/

/-- `NOP` and `SRST`. -/
theorem test_decode_control :
    dec 0b00000000_00000000_0000000_0_00000000#32 = .instr .nop ∧
    dec 0b00000000_00000000_0000000_0_00000110#32 = .instr .srst := by decide

/-- `ENCODE rom`, `ENCODE cust`, `DECODE rom`, `DECODE cust`. -/
theorem test_decode_convert :
    dec 0b00000000_00000000_0000000_0_00000001#32 = .instr (.encode .rom) ∧
    dec 0b00000000_00000000_0000000_1_00000001#32 = .instr (.encode .cust) ∧
    dec 0b00000000_00000000_0000000_0_00000010#32 = .instr (.decode .rom) ∧
    dec 0b00000000_00000000_0000000_1_00000010#32 = .instr (.decode .cust) := by decide

/-- `LDALPHA`, `DIGITOF cust, 0xC5` (A9), `SYMBOLOF rom, 58` (A2). -/
theorem test_decode_alphabet :
    dec 0b00000000_00000000_0000000_0_00000011#32 = .instr .ldalpha ∧
    dec 0b00000000_11000101_0000000_1_00000100#32 = .instr (.digitof .cust 0xC5#8) ∧
    dec 0b00000000_00111010_0000000_0_00000101#32 = .instr (.symbolof .rom 58#8) := by decide

/-- The words of R98. -/
theorem test_encode_words :
    encode .nop = 0x00000000#32 ∧ encode (.encode .cust) = 0x00000101#32 ∧ encode (.decode .rom) = 0x00000002#32 ∧
    encode .ldalpha = 0x00000003#32 ∧ encode (.digitof .cust 0xFF#8) = 0x00FF0104#32 ∧
    encode (.symbolof .rom 57#8) = 0x00390005#32 ∧ encode .srst = 0x00000006#32 := by decide

/-- I2 to I9, and each reason by name. -/
theorem test_illegal_words :
    dec 0x00000100#32 = .illegal .unusedField ∧ dec 0x00010001#32 = .illegal .unusedField ∧
    dec 0x00000201#32 = .illegal .reservedBits ∧ dec 0x01000000#32 = .illegal .reservedBits ∧
    dec 0x00000103#32 = .illegal .unusedField ∧ dec 0x00000007#32 = .illegal .reservedOpcode ∧
    dec 0x000000FF#32 = .illegal .reservedOpcode ∧ dec 0x00010006#32 = .illegal .unusedField ∧
    dec 0x00000106#32 = .illegal .unusedField := by decide

/-- The table's numbering, and a bit above the 32 of a command word. -/
theorem test_table_word :
    decodeTableWord 32 0x00390105 = some (.symbolof .cust 57#8) ∧ decodeTableWord 32 0x00000007 = none ∧
    decodeTableWord 40 0x100000001 = none := by decide

/-! ### The primitives (M1 to M13) and the tables -/

theorem test_values : val256 [] = 0 ∧ val256 [0x01#8, 0x00#8] = 256 ∧ val256 [0#8, 0#8, 0x01#8, 0x02#8] = 258 ∧
    val58 [] = 0 ∧ val58 [0, 0, 4, 26] = 258 := by decide

theorem test_digits : digits58 0 = [] ∧ digits58 57 = [57] ∧ digits58 58 = [1, 0] ∧ digits58 258 = [4, 26] ∧
    digits58 3363 = [57, 57] ∧ digits58 3364 = [1, 0, 0] := by decide

theorem test_minbytes : minbytes 0 = [] ∧ minbytes 255 = [0xFF#8] ∧ minbytes 256 = [0x01#8, 0x00#8] := by decide

theorem test_lead : lead [0#8, 0#8, 0x01#8, 0#8] 0#8 = 2 ∧ lead [] 0x31#8 = 0 ∧ lead [0#8, 0#8] 0#8 = 2 := by decide

/-- The thirteen entries of `ROM_ALPHA` that the source confirms (R113, V1). -/
theorem test_rom_confirmed :
    [0, 5, 11, 12, 18, 19, 25, 26, 28, 49, 51, 54, 56].map (fun n => romAlphaBytes.getD n 0#8) =
    [0x31#8, 0x36#8, 0x43#8, 0x44#8, 0x4B#8, 0x4C#8, 0x53#8, 0x54#8, 0x56#8, 0x72#8, 0x74#8, 0x77#8, 0x79#8] := by
  decide

/-- The inverse-table entries of the sixteen bytes from `hi * 16` on. -/
def rinvRow (hi : Nat) : List Nat := (List.range 16).map (fun lo => (invEntry romAlpha (BitVec.ofNat 8 (hi * 16 + lo))).toNat)

/-- `RINV` as R114 writes it out, rows 3x to 7x. -/
theorem test_rinv_symbols :
    rinvRow 3 = [0xFF, 0x00, 0x01, 0x02, 0x03, 0x04, 0x05, 0x06, 0x07, 0x08, 0xFF, 0xFF, 0xFF, 0xFF, 0xFF, 0xFF] ∧
    rinvRow 4 = [0xFF, 0x09, 0x0A, 0x0B, 0x0C, 0x0D, 0x0E, 0x0F, 0x10, 0xFF, 0x11, 0x12, 0x13, 0x14, 0x15, 0xFF] ∧
    rinvRow 5 = [0x16, 0x17, 0x18, 0x19, 0x1A, 0x1B, 0x1C, 0x1D, 0x1E, 0x1F, 0x20, 0xFF, 0xFF, 0xFF, 0xFF, 0xFF] ∧
    rinvRow 6 = [0xFF, 0x21, 0x22, 0x23, 0x24, 0x25, 0x26, 0x27, 0x28, 0x29, 0x2A, 0x2B, 0xFF, 0x2C, 0x2D, 0x2E] ∧
    rinvRow 7 = [0x2F, 0x30, 0x31, 0x32, 0x33, 0x34, 0x35, 0x36, 0x37, 0x38, 0x39, 0xFF, 0xFF, 0xFF, 0xFF, 0xFF] := by
  decide

/-- `RINV` as R114 writes it out, rows 0x to 2x and 8x to Fx. -/
theorem test_rinv_sentinels :
    ∀ hi ∈ [0, 1, 2, 8, 9, 10, 11, 12, 13, 14, 15], rinvRow hi = List.replicate 16 0xFF := by decide

/-! ### The commands -/

/-- P2, step 8: `NOP` after a failed command, from issue: `STATUS = 0x2`, the report cleared. -/
theorem test_nop_clears_the_report :
    (run { State.reset with done := true, err := true, errcode := 2#8, errbyte := 0x30#8, errpos := 2#32 } 0x00000000).map
      (fun t => (readReg .status t, t.errcode, t.errbyte, t.errpos)) = some (0x2#32, 0#8, 0#8, 0#32) := by decide

/-- V1, E24: `ENCODE rom` of `hello world`. -/
theorem test_encode_hello :
    (run { staging 0x10000 hello with blen := 11#16 } 0x00000001).map
      (fun t => (readReg .status t, t.tlen, text t)) = some (0x2#32, 15#16, helloText) := by decide

/-- E20: three leading zero bytes. -/
theorem test_encode_leading_zeros :
    (run { staging 0x10000 [0#8, 0#8, 0#8, 0x61#8, 0x62#8, 0x63#8] with blen := 6#16 } 0x00000001).map text =
      some [0x31#8, 0x31#8, 0x31#8, 0x5A#8, 0x69#8, 0x43#8, 0x61#8] := by decide

/-- X13: `DECODE rom` of `1115T`. -/
theorem test_decode_leading_zeros :
    (run { staging 0x20000 [0x31#8, 0x31#8, 0x31#8, 0x35#8, 0x54#8] with tlen := 5#16 } 0x00000002).map
      (fun t => (t.blen, payload t)) = some (5#16, [0#8, 0#8, 0#8, 0x01#8, 0x02#8]) := by decide

/-- X16: `DECODE rom` of `St0V` reports the invalid symbol. -/
theorem test_decode_invalid_symbol :
    (run { staging 0x20000 [0x53#8, 0x74#8, 0x30#8, 0x56#8] with tlen := 4#16, blen := 9#16 } 0x00000002).map
      (fun t => (readReg .status t, t.errcode, t.errbyte, t.errpos, t.blen)) =
      some (0x6#32, 2#8, 0x30#8, 2#32, 9#16) := by decide

/-- A8: `LDALPHA` of the identity alphabet. -/
theorem test_ldalpha_loads :
    (run stagedIdentity 0x00000003).map
      (fun t => (readReg .status t, t.csym[57], t.cinv[0x39], t.cinv[0x3A])) =
      some (0xA#32, 0x39#8, 57#8, 0xFF#8) := by decide

/-- P4, step 60: `LDALPHA` with a duplicate. -/
theorem test_ldalpha_duplicate :
    (run stagedDuplicate 0x00000003).map
      (fun t => (readReg .status t, t.errcode, t.errbyte, t.errpos)) = some (0x6#32, 1#8, 0x34#8, 57#32) := by decide

/-- P3, step 68: `DIGITOF rom, 0x7A`. -/
theorem test_digitof_digit :
    (run State.reset 0x007A0004).map (fun t => (readReg .status t, t.res)) = some (0x2#32, 0x39#8) := by decide

/-- P3, step 69: `DIGITOF rom, 0x30` is the sentinel and no error. -/
theorem test_digitof_sentinel :
    (run State.reset 0x00300004).map (fun t => (readReg .status t, t.res)) = some (0x2#32, 0xFF#8) := by decide

/-- A2: `SYMBOLOF rom, 57`. -/
theorem test_symbolof_last :
    (run State.reset 0x00390005).map (fun t => (readReg .status t, t.res)) = some (0x2#32, 0x7A#8) := by decide

/-- A10: `SYMBOLOF cust, 58` with nothing loaded: `AlphabetNotLoaded` outranks `DigitRange`. -/
theorem test_symbolof_priority :
    (run State.reset 0x003A0105).map (fun t => (readReg .status t, t.errcode, t.errbyte, t.errpos)) =
      some (0x6#32, 8#8, 0#8, 0#32) := by decide

/-- P3, step 73: `SRST`. -/
theorem test_srst :
    (run { loaded with done := true, blen := 3#16, tlen := 3#16, alen := 58#8, res := 0xFF#8 } 0x00000006).map
      (fun t => (readReg .status t, t.lcmd, t.blen, t.tlen, t.alen, t.res)) =
      some (0x0#32, 0#32, 0#16, 0#16, 0#8, 0#8) := by decide

/-- I11: `SRST` keeps the buffers. -/
theorem test_srst_keeps_buffers :
    (run { loaded with mem := [(0x10002, 1#8)] } 0x00000006).map (fun t => readByte t 0x10002) = some 1#8 := by decide

/-- I8: an illegal `SRST` word resets nothing. -/
theorem test_illegal_word :
    (run { State.reset with blen := 3#16 } 0x00010006).map (fun t => (readReg .status t, t.errcode, t.blen, t.lcmd)) =
      some (0x6#32, 5#8, 3#16, 0x00010006#32) := by decide

/-! ### The host port (H1 to H10, I12) -/

/-- H1, H2. -/
theorem test_host_id_cap :
    (host State.reset (.read32 0x00)).map State.replies = some [.word 0x42353801#32] ∧
    (host State.reset (.read32 0x04)).map State.replies = some [.word 0x00580040#32] := by decide

/-- H4, H5: the bits above a field are dropped. -/
theorem test_host_length_registers :
    (host State.reset (.write32 0x1C 0x00012345#32)).map (readReg .blen) = some 0x00002345#32 ∧
    (host State.reset (.write32 0x24 0x0000013A#32)).map (readReg .alen) = some 0x0000003A#32 := by decide

/-- H6 to H9: inert accesses. -/
theorem test_host_inert :
    (host State.reset (.read8 0x0C)).map State.replies = some [.byte 0#8] ∧
    (host State.reset (.read32 0x40)).map State.replies = some [.word 0#32] ∧
    (host State.reset (.read32 0x0A)).map State.replies = some [.word 0#32] ∧
    (host State.reset (.write8 0x10040 1#8)).map State.mem = some [] := by decide

/-- H10: the last byte of `BBUF`. -/
theorem test_host_last_byte :
    (host State.reset (.write8 0x1003F 0xAB#8)).map (fun t => readByte t 0x1003F) = some 0xAB#8 := by decide

/-- I12, P5: a write to `CMD` while busy is not latched. -/
theorem test_host_busy_write :
    (host (busyWith 0x00000001#32) (.write32 0x08 0x00000006#32)).map (fun t => (t.lcmd, t.busy)) =
      some (0x00000001#32, true) := by decide

/-- H13: `STATUS` reads true while busy. -/
theorem test_host_busy_status :
    (host (busyWith 0x00000001#32) (.read32 0x0C)).map State.replies = some [.word 0x1#32] := by decide

/-- R99: the words of `RUN ENCODE rom` with one poll. -/
theorem test_asm_run :
    asmRun (.encode .rom) 1 = [.access (.write32 0x08 0x00000001#32), .access (.read32 0x0C), .complete,
      .access (.read32 0x0C)] := by decide

/-- R99: after `RUN`, `B58ENC` reads `STATUS` once more, then `TLEN` and that many bytes of `TBUF`, or `ERRCODE`. -/
theorem test_asm_b58enc :
    asmB58enc .rom [0x01#8] 0 = [.access (.write8 0x10000 0x01#8), .access (.write32 0x1C 1#32),
      .access (.write32 0x08 0x00000001#32), .complete, .access (.read32 0x0C), .access (.read32 0x0C)] ∧
    asmB58encAfter 0x2#32 2#32 = [.access (.read32 0x20), .access (.read8 0x20000), .access (.read8 0x20001)] ∧
    asmB58encAfter 0x6#32 2#32 = [.access (.read32 0x10)] := by decide

/-- R99: `B58DEC` after its read of `STATUS`. -/
theorem test_asm_b58dec :
    asmB58decAfter 0xA#32 1#32 = [.access (.read32 0x1C), .access (.read8 0x10000)] ∧
    asmB58decAfter 0x6#32 1#32 = [.access (.read32 0x10), .access (.read32 0x14), .access (.read32 0x18)] := by decide

/-- R99: the count of 58, 59 and 255 symbols is the true one; the count of 314 is the model's choice, 255. -/
theorem test_asm_count :
    [58, 59, 255, 314].map (fun n => stagedCount (List.replicate n 0#8)) = [58#32, 59#32, 255#32, 255#32] := by
  simp [stagedCount]

/-! ### The hypotheses of the statements are met -/

theorem test_meets_DecodeOfEncode : Instr.nop.wf = true ∧ (Instr.digitof .cust 0xFF#8).wf = true := by decide

theorem test_meets_WordSelectsARow :
    0x00FF0104#32 &&& tableMask (.digitof .rom 0#8) = tableMatch (.digitof .rom 0#8) ∧
    dec 0x00FF0104#32 = .instr (.digitof .cust 0xFF#8) := by decide

theorem test_meets_StepRunsTheDecodedCommand :
    (busyWith 0x00000101#32).busy = true ∧ (busyWith 0x00000101#32).pending = [] ∧
    dec (busyWith 0x00000101#32).lcmd = .instr (.encode .cust) ∧ (Instr.encode .cust).wf = true ∧
    ({ busyWith 0x00000101#32 with pending := [.complete] }).pending.head? = some .complete := by decide

theorem test_meets_IllegalWordCompletes :
    (busyWith 0x00000007#32).busy = true ∧ (busyWith 0x00000007#32).pending = [] ∧
    dec (busyWith 0x00000007#32).lcmd = .illegal .reservedOpcode := by decide

theorem test_meets_Issue :
    ({ State.reset with pending := [.access (.write32 0x08 0xFFFFFFFF#32)] }).busy = false ∧
    ({ busyWith 1#32 with pending := [.access (.write32 0x08 0xFFFFFFFF#32)] }).busy = true := by decide

theorem test_meets_IdleEngine :
    State.reset.busy = false ∧ State.reset.pending = [] ∧
    ({ State.reset with pending := [.complete] }).pending = [.complete] := by decide

theorem test_meets_OnlyAnAccessOutsideTheWindowStops :
    AccessesInWindow { State.reset with pending := [.access (.read32 0x2FFFF), .hardReset] } ∧
    0x30000 ≤ (HostAccess.write8 0x30000 0#8).off := by
  refine ⟨?_, by decide⟩
  intro a ha
  simp only [List.mem_cons, Event.access.injEq, reduceCtorEq, List.not_mem_nil, or_false] at ha
  subst ha
  decide

theorem test_meets_NopIssued :
    let s : State := { State.reset with err := true, pending := [.access (.write32 0x08 0x00000000#32), .complete] }
    s.busy = false ∧ s.pending = .access (.write32 0x08 0x00000000#32) :: .complete :: [] := by decide

theorem rom_wf : (alphabetOf romAlpha).wf := alphabetOf_wf (by decide)

theorem test_meets_DigitofGivesTheDigit :
    selectAlphabet .rom State.reset = some (alphabetOf romAlpha) ∧ (alphabetOf romAlpha).wf ∧
    symbolOf (alphabetOf romAlpha) 57 = 0x7A#8 ∧ symbolOf (alphabetOf romAlpha) 0 = 0x31#8 ∧
    (∀ d : Digit, symbolOf (alphabetOf romAlpha) d ≠ 0xFF#8) := ⟨rfl, rom_wf, by decide, by decide, by decide⟩

theorem test_meets_DigitofReadsTheTable :
    selectAlphabet .cust loaded = some { sym := identitySyms, inv := invTable identitySyms } := rfl

theorem test_meets_SymbolofClauses :
    (57#8).toNat < 58 ∧ 58 ≤ (58#8).toNat ∧ 58 ≤ (0xFF#8).toNat ∧
    selectAlphabet .rom State.reset = some (alphabetOf romAlpha) := ⟨by decide, by decide, by decide, rfl⟩

theorem test_meets_SelectedAlphabet : loaded.avalid = true ∧ State.reset.avalid = false := by decide

theorem staged_identity_distinct (i j : Nat) (hij : i < j) (hj : j < 58) :
    readByte stagedIdentity (0x40 + i) ≠ readByte stagedIdentity (0x40 + j) := by
  have h : ∀ j < 58, ∀ i < j, readByte stagedIdentity (0x40 + i) ≠ readByte stagedIdentity (0x40 + j) := by decide
  exact h j hj i hij

theorem test_meets_LdalphaLoads : stagedIdentity.alen = 58#8 ∧
    (∀ i j, i < j → j < 58 → readByte stagedIdentity (0x40 + i) ≠ readByte stagedIdentity (0x40 + j)) :=
  ⟨by decide, staged_identity_distinct⟩

theorem test_meets_LdalphaWrongCount :
    ({ State.reset with alen := 57#8 }).alen ≠ 58#8 ∧ ({ State.reset with alen := 59#8 }).alen ≠ 58#8 ∧
    State.reset.alen ≠ 58#8 := by decide

theorem test_meets_LdalphaDuplicate : stagedDuplicate.alen = 58#8 ∧ 3 < 57 ∧ 57 < 58 ∧
    readByte stagedDuplicate (0x40 + 3) = readByte stagedDuplicate (0x40 + 57) ∧
    (∀ k l, k < l → l < 57 → readByte stagedDuplicate (0x40 + k) ≠ readByte stagedDuplicate (0x40 + l)) := by
  refine ⟨by decide, by decide, by decide, by decide, fun k l hkl hl => ?_⟩
  have h : ∀ l < 57, ∀ k < l, readByte stagedDuplicate (0x40 + k) ≠ readByte stagedDuplicate (0x40 + l) := by decide
  exact h l hl k hkl

/-- B1: 64 bytes of 0xFF fill `TBUF` exactly. -/
theorem test_meets_EncodeWrites :
    let s : State := { staging 0x10000 (List.replicate 64 0xFF#8) with blen := 64#16 }
    selectAlphabet .rom s = some (alphabetOf romAlpha) ∧ s.blen.toNat ≤ s.cfg.nMax.toNat ∧
    (encText (alphabetOf romAlpha) ((List.range s.blen.toNat).map (fun i => readByte s (0x10000 + i)))).length ≤
      s.cfg.tMax.toNat := ⟨rfl, by decide, by decide⟩

/-- B2, and an instance without R7. -/
theorem test_meets_EncodeFails :
    let s : State := { State.reset with blen := 65#16 }
    let s2 : State := { staging 0x10000 [0xFF#8, 0xFF#8] with
      cfg := { defaultConfig with nMax := 2#16, tMax := 1#16 }, blen := 2#16 }
    (selectAlphabet .rom s = some (alphabetOf romAlpha) ∧ s.cfg.nMax.toNat < s.blen.toNat) ∧
    (selectAlphabet .rom s2 = some (alphabetOf romAlpha) ∧ s2.blen.toNat ≤ s2.cfg.nMax.toNat ∧
      s2.cfg.tMax.toNat < (encText (alphabetOf romAlpha) (payload s2)).length) :=
  ⟨⟨rfl, by decide⟩, rfl, by decide, by decide⟩

/-- X15. -/
theorem test_meets_DecodeWrites :
    let s : State := { staging 0x20000 helloText with tlen := 15#16 }
    let x := (List.range s.tlen.toNat).map (fun i => readByte s (0x20000 + i))
    selectAlphabet .rom s = some (alphabetOf romAlpha) ∧ s.tlen.toNat ≤ s.cfg.tMax.toNat ∧
    (∀ b ∈ x, invOf (alphabetOf romAlpha) b ≠ 0xFF#8) ∧
    (decText (alphabetOf romAlpha) x).length ≤ s.cfg.nMax.toNat := ⟨rfl, by decide, by decide, by decide⟩

/-- X16, at position 2. -/
theorem test_meets_DecodeReports :
    let s : State := { staging 0x20000 [0x53#8, 0x74#8, 0x30#8, 0x56#8] with tlen := 4#16 }
    selectAlphabet .rom s = some (alphabetOf romAlpha) ∧ s.tlen.toNat ≤ s.cfg.tMax.toNat ∧ 2 < s.tlen.toNat ∧
    invOf (alphabetOf romAlpha) (readByte s (0x20000 + 2)) = 0xFF#8 ∧
    (∀ j < 2, invOf (alphabetOf romAlpha) (readByte s (0x20000 + j)) ≠ 0xFF#8) :=
  ⟨rfl, by decide, by decide, by decide, by decide⟩

/-- B4, and an instance whose `BBUF` is too small for the text `11`. -/
theorem test_meets_DecodeFails :
    let s : State := { State.reset with tlen := 89#16 }
    let s2 : State := { staging 0x20000 [0x31#8, 0x31#8] with cfg := { defaultConfig with nMax := 1#16 }, tlen := 2#16 }
    (selectAlphabet .rom s = some (alphabetOf romAlpha) ∧ s.cfg.tMax.toNat < s.tlen.toNat) ∧
    (selectAlphabet .rom s2 = some (alphabetOf romAlpha) ∧ s2.tlen.toNat ≤ s2.cfg.tMax.toNat ∧
      (∀ b ∈ text s2, invOf (alphabetOf romAlpha) b ≠ 0xFF#8) ∧
      s2.cfg.nMax.toNat < (decText (alphabetOf romAlpha) (text s2)).length) :=
  ⟨⟨rfl, by decide⟩, rfl, by decide, by decide, by decide⟩

theorem test_meets_FailingCommand :
    (∃ t, exec (.symbolof .rom 58#8) State.reset = .next t ∧ t.err = true ∧ t.errcode ≠ 1#8) ∧
    (∃ t, exec .ldalpha State.reset = .next t ∧ t.err = true ∧ t.errcode = 1#8) :=
  ⟨⟨_, rfl, by decide, by decide⟩, ⟨_, rfl, by decide, by decide⟩⟩

theorem test_meets_WritesWhileBusy :
    (busyWith 1#32).busy = true ∧ (HostAccess.write32 0x1C 2#32).isWrite = true ∧
    (HostAccess.write32 0x1C 2#32).wf = true ∧ (HostAccess.write8 0x2FFFF 9#8).isWrite = true ∧
    (HostAccess.write8 0x2FFFF 9#8).wf = true := by decide

theorem test_meets_ReadsWhileBusy :
    (busyWith 1#32).busy = true ∧ idleRegisterValue (busyWith 1#32) 0x00 = some 0x42353801 ∧
    idleRegisterValue (busyWith 1#32) 0x0C = some 1 ∧ isBufferByte (busyWith 1#32).cfg 0x20057 = true ∧
    0x2C ∉ REGISTER_OFFSETS ∧ isBufferByte (busyWith 1#32).cfg 0x20058 = false := by decide

/-- A busy state with a legal status, `AVALID` set. -/
theorem test_meets_ReadsWhileBusy_status :
    StatusLegal { loaded with busy := true } ∧ idleRegisterValue { loaded with busy := true } 0x0C = some 0x9 := by
  unfold StatusLegal
  decide

theorem test_meets_InvalidAccesses :
    0x0A ∉ REGISTER_OFFSETS ∧ 0x2C ∉ REGISTER_OFFSETS ∧ 0x2FFFF ∉ REGISTER_OFFSETS ∧
    (∀ off ∈ [0x3F, 0x80, 0xFFFF, 0x10040, 0x1FFFF, 0x20058, 0x2FFFF],
      ¬((0x40 ≤ off ∧ off < 0x80) ∨ (0x10000 ≤ off ∧ off < 0x10000 + State.reset.cfg.nMax.toNat) ∨
        (0x20000 ≤ off ∧ off < 0x20000 + State.reset.cfg.tMax.toNat))) := by decide

theorem test_meets_IdleRegisterRead :
    REGISTER_OFFSETS.map (idleRegisterValue { loaded with errpos := 5#32, res := 0xFF#8 }) =
      [some 0x42353801, some 0x00580040, some 0, some 8, some 0, some 0, some 5, some 0, some 0, some 0, some 0xFF] := by
  decide

theorem test_meets_IdleRegisterWrites :
    ({ State.reset with pending := [.access (.write32 0x24 0xFFFFFFFF#32)] }).busy = false ∧
    (∀ off ∈ [0x00, 0x04, 0x0C, 0x10, 0x14, 0x18, 0x28], off ∈ REGISTER_OFFSETS) := by decide

theorem test_meets_BufferByte :
    ∀ off ∈ [0x40, 0x7F, 0x10000, 0x1003F, 0x20000, 0x20057],
      ((0x40 ≤ off ∧ off < 0x80) ∨ (0x10000 ≤ off ∧ off < 0x10000 + State.reset.cfg.nMax.toNat) ∨
        (0x20000 ≤ off ∧ off < 0x20000 + State.reset.cfg.tMax.toNat)) := by decide

theorem test_meets_HardwareReset :
    ({ busyWith 1#32 with pending := [.hardReset, .complete] }).pending = .hardReset :: [.complete] := by decide

/-- A busy state of the invariant: `ENCODE cust` of `00 FF` in progress, the identity alphabet loaded (A8). -/
def encoding : State :=
  { loaded with lcmd := 0x00000101#32, busy := true, blen := 2#16, mem := [(0x10000, 0#8), (0x10001, 0xFF#8)] }

theorem encoding_inv : Inv encoding := by
  refine ⟨?_, ?_, ?_, ?_, ?_, ?_, ?_⟩
  · unfold Config.wf; decide
  · unfold StatusLegal; decide
  · unfold ReportConsistent; decide
  · exact fun _ => alphabetOf_wf (by decide)
  · decide
  · unfold CellsInBuffers; decide
  · unfold IdleCommandZero; decide

theorem test_meets_EveryStepKeepsTheInvariant : Inv encoding ∧ ∃ t, step encoding = .next t := by
  obtain ⟨t, ht, -⟩ := complete_cases (takeEvent encoding)
  exact ⟨encoding_inv, t, (step_complete rfl rfl).trans ht⟩

/-- The completion of a successful `LDALPHA` changes the custom slot. -/
theorem test_meets_AlphabetsChange :
    let s : State := { stagedIdentity with busy := true, lcmd := 0x00000003#32 }
    (after s).map State.avalid = some true ∧ s.avalid = false := by decide

theorem test_meets_BusyChanges :
    (host State.reset (.write32 0x08 1#32)).map State.busy = some true ∧
    (after (busyWith 0#32)).map State.busy = some false ∧
    (host (busyWith 1#32) (.read32 0x0C)).map State.busy = some true := by decide

/-- `CMD` changes by issue from idle, by the completion of `SRST`, and by hardware reset. -/
theorem test_meets_CommandChanges :
    (host State.reset (.write32 0x08 1#32)).map State.lcmd = some 1#32 ∧ State.reset.lcmd = 0#32 ∧
    (after (busyWith 6#32)).map State.lcmd = some 0#32 ∧ (busyWith 6#32).lcmd = 6#32 ∧
    (after { busyWith 1#32 with pending := [.hardReset] }).map State.lcmd = some 0#32 := by decide

theorem test_meets_CommandSeesTheInputs :
    (busyWith 1#32).busy = true ∧
    (∀ a ∈ [HostAccess.write32 0x1C 2#32, HostAccess.write8 0x10000 9#8, HostAccess.read32 0x20], a.wf = true) := by decide

theorem test_meets_BusyEngineCompletes :
    AccessesInWindow { busyWith 1#32 with pending := [.access (.read32 0x0C), .complete] } ∧ (busyWith 1#32).busy = true := by
  refine ⟨?_, by decide⟩
  intro a ha
  simp only [List.mem_cons, Event.access.injEq, reduceCtorEq, List.not_mem_nil, or_false] at ha
  subst ha
  decide

/-- Two states that differ outside what the command names, with one verdict: a success and a failure. -/
theorem test_meets_ResultDepends :
    (SameInputs (.digitof .rom 0x7A#8) State.reset { State.reset with res := 9#8, blen := 5#16, mem := [(0x40, 1#8)] }) ∧
    (∃ t, exec (.digitof .rom 0x7A#8) State.reset = .next t ∧ t.err = false) ∧
    (SameInputs (.symbolof .cust 0#8) State.reset { State.reset with res := 9#8, errcode := 2#8 }) ∧
    (∃ t, exec (.symbolof .cust 0#8) State.reset = .next t ∧ t.err = true) :=
  ⟨rfl, ⟨_, rfl, by decide⟩, rfl, ⟨_, rfl, by decide⟩⟩

theorem test_meets_AlphabetClaims : (alphabetOf romAlpha).wf ∧ (alphabetOf identitySyms).wf :=
  ⟨rom_wf, alphabetOf_wf (by decide)⟩

/-- `15T`: a text of symbols with one leading zero-digit symbol. -/
theorem test_meets_TextClaims :
    (alphabetOf romAlpha).wf ∧ (∀ b ∈ [0x31#8, 0x35#8, 0x54#8], ∃ d : Digit, symbolOf (alphabetOf romAlpha) d = b) ∧
    lead [0x31#8, 0x35#8, 0x54#8] (symbolOf (alphabetOf romAlpha) 0) = 1 := by
  refine ⟨rom_wf, fun b hb => ?_, by decide⟩
  simp only [List.mem_cons, List.not_mem_nil, or_false] at hb
  rcases hb with rfl | rfl | rfl
  · exact ⟨0, by decide⟩
  · exact ⟨4, by decide⟩
  · exact ⟨26, by decide⟩

/-- `00 01 02` and `00`: `m` above 0 and `m = 0`. -/
theorem test_meets_EncodedLength :
    lead [0#8, 0x01#8, 0x02#8] 0#8 = 1 ∧ (digits58 (val256 [0x01#8, 0x02#8])).length = 2 ∧ lead [0#8] 0#8 = 1 ∧
    (digits58 (val256 [])).length = 0 := by decide

theorem roomy_default : defaultConfig.roomy := by unfold Config.roomy; decide

/-- B11: 88 is the least `T_MAX` for `N_MAX = 64`. -/
theorem test_capacity_is_least : ¬({ defaultConfig with tMax := 87#16 }).roomy := by unfold Config.roomy; decide

theorem test_meets_EncodingFits :
    256 ^ 64 ≤ 58 ^ 88 ∧ (List.replicate 64 0xFF#8).length ≤ 64 ∧ State.reset.cfg.roomy ∧
    selectAlphabet .rom { State.reset with blen := 64#16 } = some (alphabetOf romAlpha) ∧
    (64#16).toNat ≤ State.reset.cfg.nMax.toNat := ⟨roomy_default, by decide, roomy_default, rfl, by decide⟩

theorem test_meets_EncodeThenDecode :
    Inv encoding ∧ encoding.cfg.roomy ∧
    selectAlphabet .cust encoding = some { sym := identitySyms, inv := invTable identitySyms } ∧
    encoding.blen.toNat ≤ encoding.cfg.nMax.toNat := ⟨encoding_inv, roomy_default, rfl, by decide⟩

end Sys2Proof.Tests
end

/-! # The numerals of spec/00_scope.md section 4 (R10 to R14) -/

section
namespace Sys2Proof.Machine

/-- The closed form of R10: `s[i] * 256^(n-1-i)` summed over the `n` indices of `s`. -/
def bigEndianSum (s : List Byte) : Nat :=
  ((List.range s.length).map (fun i => (s.getD i 0#8).toNat * 256 ^ (s.length - 1 - i))).sum

/-- A byte put in front takes the weight `256^|s|`, and every other byte keeps its own. -/
theorem bigEndianSum_cons (b : Byte) (s : List Byte) :
    bigEndianSum (b :: s) = b.toNat * 256 ^ s.length + bigEndianSum s := by
  simp only [bigEndianSum, List.length_cons, List.range_succ_eq_map, List.map_cons, List.map_map, List.sum_cons,
    Function.comp_def, List.getD_cons_zero, List.getD_cons_succ, Nat.succ_eq_add_one, Nat.add_sub_cancel,
    Nat.sub_zero, Nat.sub_sub, Nat.add_comm 1]

theorem val256_eq_bigEndianSum (s : List Byte) : val256 s = bigEndianSum s := by
  induction s with
  | nil => rfl
  | cons b s ih => rw [bigEndianSum_cons, val256, ih]

/-- Settles O42: the recursion of `val256` is that of the closed form (`bigEndianSum_cons`). -/
theorem val256IsTheBigEndianSum : Obligations.Val256IsTheBigEndianSum := by
  unfold Obligations.Val256IsTheBigEndianSum
  exact val256_eq_bigEndianSum

theorem digits58_ne_nil {v : Nat} (h : v ≠ 0) : digits58 v ≠ [] := by simp [digits58_step h]

theorem minbytes_ne_nil {v : Nat} (h : v ≠ 0) : minbytes v ≠ [] := by simp [minbytes_step h]

/-- Settles O43: the recursion is `digits58_step`, the leading digit `head_digits58_ne_zero`, and the length
`length_digits58_le_iff`. -/
theorem digits58IsTheBase58Numeral : Obligations.Digits58IsTheBase58Numeral := by
  unfold Obligations.Digits58IsTheBase58Numeral
  refine ⟨digits58_zero, fun v hv => ⟨?_, ?_, ?_, ?_⟩⟩
  · rw [digits58_step hv.ne', List.map_append]
    rfl
  · exact ⟨_, _, (List.cons_head_tail (digits58_ne_nil hv.ne')).symm, head_digits58_ne_zero v _⟩
  · exact (length_digits58_le_iff v _).1 le_rfl
  · exact fun k => (length_digits58_le_iff v k).2

/-- Settles O44: `val58` is a fold from the left, and `val58_digits58` reads the numeral back. -/
theorem val58InvertsDigits58 : Obligations.Val58InvertsDigits58 := by
  unfold Obligations.Val58InvertsDigits58
  exact ⟨rfl, val58_append_singleton, val58_digits58⟩

/-- Settles O45: the recursion is `minbytes_step`, the leading byte `head_minbytes_ne_zero`, the length
`length_minbytes_le_iff`, and the value `val256_minbytes`. -/
theorem minbytesIsTheMinimalRepresentation : Obligations.MinbytesIsTheMinimalRepresentation := by
  unfold Obligations.MinbytesIsTheMinimalRepresentation
  refine ⟨minbytes_zero, fun v => ⟨fun hv => ⟨?_, ?_, ?_, ?_⟩, val256_minbytes v⟩⟩
  · rw [minbytes_step hv.ne', List.map_append, List.map_singleton, BitVec.toNat_ofNat]
  · exact ⟨_, _, (List.cons_head_tail (minbytes_ne_nil hv.ne')).symm, head_minbytes_ne_zero v _⟩
  · exact (length_minbytes_le_iff v _).1 le_rfl
  · exact fun k => (length_minbytes_le_iff v k).2

theorem getElem?_of_lt_lead {s : List Byte} {x : Byte} {i : Nat} (h : i < lead s x) : s[i]? = some x := by
  rw [← replicate_lead_append s x, List.getElem?_append_left (by simpa using h), List.getElem?_replicate_of_lt h]

/-- The element that ends the leading run of `x`, if there is one, is not `x`. -/
theorem getElem?_lead_ne (s : List Byte) (x : Byte) : s[lead s x]? ≠ some x := by
  intro h
  obtain ⟨hlt, hx⟩ := List.getElem?_eq_some_iff.1 h
  exact head_drop_lead s x (List.drop_eq_nil_iff.not.2 hlt.not_ge) ((List.head_drop _).trans hx)

/-- Settles O46: a longer run would pass the element that ends the run of `lead` (`getElem?_lead_ne`). -/
theorem leadIsTheLargestRun : Obligations.LeadIsTheLargestRun := by
  unfold Obligations.LeadIsTheLargestRun
  refine fun s x => ⟨lead_le_length s x, fun i => getElem?_of_lt_lead, fun z _ hrun => ?_⟩
  exact not_lt.1 fun hlt => getElem?_lead_ne s x (hrun _ hlt)

end Sys2Proof.Machine
end

/-! # A command's result depends on the inputs it names alone (spec/00_scope.md R4) -/

section
namespace Sys2Proof.Machine

/-- The verdict of R4 on two states that command `i` left: both failed with one report, or both succeeded with the same
outputs. -/
def SameVerdict (i : Instr) (t1 t2 : State) : Prop :=
  t1.err = t2.err ∧
  (t1.err = true → t1.errcode = t2.errcode ∧ t1.errbyte = t2.errbyte ∧ t1.errpos = t2.errpos) ∧
  (t1.err = false → SameOutputs i t1 t2)

/-- Two results of command `i` are next states with one verdict. -/
def ResultsAgree (i : Instr) (r1 r2 : Result) : Prop :=
  ∃ t1 t2, r1 = .next t1 ∧ r2 = .next t2 ∧ SameVerdict i t1 t2

/-- One error raised in two states is one report, whatever else the states hold (R200). -/
theorem resultsAgree_raise (i : Instr) (e : CmdError) (b : Byte) (p : Word) (s1 s2 : State) :
    ResultsAgree i (.next (raise e b p s1)) (.next (raise e b p s2)) :=
  ⟨_, _, rfl, rfl, by simp, by simp, by simp⟩

/-- Two results without an error agree by their outputs. -/
theorem resultsAgree_of_outputs {i : Instr} {t1 t2 : State} (h1 : t1.err = false) (h2 : t2.err = false)
    (h : SameOutputs i t1 t2) : ResultsAgree i (.next t1) (.next t2) :=
  ⟨t1, t2, rfl, rfl, h1.trans h2.symm, fun he => absurd (h1.symm.trans he) Bool.false_ne_true, fun _ => h⟩

/-- A text that fits a length register is the same output of `ENCODE` whatever `TBUF` held. -/
theorem resultsAgree_commitText (a : AlphaSel) (e : List Byte) (s1 s2 : State) (h : e.length < 65536) :
    ResultsAgree (.encode a) (.next (finish (commitText e s1))) (.next (finish (commitText e s2))) :=
  resultsAgree_of_outputs rfl rfl ⟨rfl, by rw [text_commitText e s1 h, text_commitText e s2 h]⟩

/-- A payload that fits a length register is the same output of `DECODE` whatever `BBUF` held. -/
theorem resultsAgree_commitPayload (a : AlphaSel) (r : List Byte) (s1 s2 : State) (h : r.length < 65536) :
    ResultsAgree (.decode a) (.next (finish (commitPayload r s1))) (.next (finish (commitPayload r s2))) :=
  resultsAgree_of_outputs rfl rfl ⟨rfl, by rw [payload_commitPayload r s1 h, payload_commitPayload r s2 h]⟩

theorem stagedTable_congr {s1 s2 : State} (h : staged s1 = staged s2) : stagedTable s1 = stagedTable s2 := by
  simp only [stagedTable, h]

theorem execEncode_agree {a : AlphaSel} {s1 s2 : State} (h : SameInputs (.encode a) s1 s2) :
    ResultsAgree (.encode a) (execEncode a s1) (execEncode a s2) := by
  obtain ⟨hcfg, hlen, hbytes, hsel⟩ := h
  simp only [execEncode, hcfg, hlen, hbytes, hsel]
  cases selectAlphabet a s2 with
  | none => exact resultsAgree_raise ..
  | some A =>
    dsimp only
    split_ifs with hbad hover
    · exact resultsAgree_raise ..
    · exact resultsAgree_raise ..
    · exact resultsAgree_commitText _ _ _ _ ((not_lt.1 hover).trans_lt s2.cfg.tMax.isLt)

theorem execDecode_agree {a : AlphaSel} {s1 s2 : State} (h : SameInputs (.decode a) s1 s2) :
    ResultsAgree (.decode a) (execDecode a s1) (execDecode a s2) := by
  obtain ⟨hcfg, hlen, hbytes, hsel⟩ := h
  simp only [execDecode, hcfg, hlen, hbytes, hsel]
  cases selectAlphabet a s2 with
  | none => exact resultsAgree_raise ..
  | some A =>
    by_cases hbad : s2.cfg.tMax.toNat < s2.tlen.toNat
    · simp only [if_pos hbad]
      exact resultsAgree_raise ..
    · simp only [if_neg hbad]
      cases firstInvalid A (text s2) with
      | some p => exact resultsAgree_raise ..
      | none =>
        dsimp only
        split_ifs with hover
        · exact resultsAgree_raise ..
        · exact resultsAgree_commitPayload _ _ _ _ ((not_lt.1 hover).trans_lt s2.cfg.nMax.isLt)

theorem execLdalpha_agree {s1 s2 : State} (h : SameInputs .ldalpha s1 s2) :
    ResultsAgree .ldalpha (execLdalpha s1) (execLdalpha s2) := by
  obtain ⟨hcount, hbytes⟩ := h
  simp only [execLdalpha, hcount, hbytes, stagedTable_congr hbytes]
  split_ifs with hbad
  · exact resultsAgree_raise ..
  · cases firstRepeat [] (staged s2) with
    | some p => exact resultsAgree_raise ..
    | none => exact resultsAgree_of_outputs rfl rfl ⟨rfl, rfl, rfl⟩

theorem execDigitof_agree {a : AlphaSel} {b : Byte} {s1 s2 : State} (h : SameInputs (.digitof a b) s1 s2) :
    ResultsAgree (.digitof a b) (execDigitof a b s1) (execDigitof a b s2) := by
  have hsel : selectAlphabet a s1 = selectAlphabet a s2 := h
  simp only [execDigitof, hsel]
  cases selectAlphabet a s2 with
  | none => exact resultsAgree_raise ..
  | some A => exact resultsAgree_of_outputs rfl rfl rfl

theorem execSymbolof_agree {a : AlphaSel} {d : Byte} {s1 s2 : State} (h : SameInputs (.symbolof a d) s1 s2) :
    ResultsAgree (.symbolof a d) (execSymbolof a d s1) (execSymbolof a d s2) := by
  have hsel : selectAlphabet a s1 = selectAlphabet a s2 := h
  simp only [execSymbolof, hsel]
  cases selectAlphabet a s2 with
  | none => exact resultsAgree_raise ..
  | some A =>
    dsimp only
    split_ifs with hd
    · exact resultsAgree_of_outputs rfl rfl rfl
    · exact resultsAgree_raise ..

/-- The verdict is a function of the inputs that R50 lists for the command (R4). -/
theorem exec_agree (i : Instr) {s1 s2 : State} (h : SameInputs i s1 s2) :
    ResultsAgree i (exec i s1) (exec i s2) := by
  cases i with
  | nop => exact resultsAgree_of_outputs rfl rfl trivial
  | encode a => exact execEncode_agree h
  | decode a => exact execDecode_agree h
  | ldalpha => exact execLdalpha_agree h
  | digitof a b => exact execDigitof_agree h
  | symbolof a d => exact execSymbolof_agree h
  | srst => exact resultsAgree_of_outputs rfl rfl ⟨rfl, rfl, rfl, rfl, rfl, rfl, rfl, rfl, rfl⟩

/-- Settles O41, by cases on the command: `exec_agree`. -/
theorem resultDependsOnlyOnNamedInputs : Obligations.ResultDependsOnlyOnNamedInputs := by
  unfold Obligations.ResultDependsOnlyOnNamedInputs
  intro i s1 s2 t1 t2 hin h1 h2
  obtain ⟨u1, u2, hu1, hu2, hverdict⟩ := exec_agree i hin
  rw [h1] at hu1
  rw [h2] at hu2
  cases hu1
  cases hu2
  exact hverdict

end Sys2Proof.Machine
end

/-! # The invariant of the machine (spec/10_state.md R33, R36, R37, R46, R47; spec/60_exceptions.md R191) -/

section
namespace Sys2Proof.Machine

/-! ## What each shared operation does to the invariant -/

/-- A busy engine shows neither `DONE` nor `ERR` (R33). -/
theorem StatusLegal.of_busy {s : State} (h : StatusLegal s) (hb : s.busy = true) :
    s.done = false ∧ s.err = false := by
  simpa [StatusLegal, hb] using h

theorem Inv.err_of_busy {s : State} (h : Inv s) (hb : s.busy = true) : s.err = false := (h.status.of_busy hb).2

theorem Inv.reply {s : State} (h : Inv s) (r : Reply) : Inv (reply r s) := { h with }

theorem Inv.countDraw {s : State} (h : Inv s) : Inv (countDraw s) := { h with }

theorem Inv.setRes {s : State} (h : Inv s) (v : Byte) : Inv (setRes v s) := { h with }

/-- Issue clears the report together with `ERR` (R181). -/
theorem Inv.issue {s : State} (h : Inv s) (w : Word) : Inv (issue w s) :=
  { h with
    status := by simp [StatusLegal]
    report := by simp [ReportConsistent]
    idle := by simp [IdleCommandZero] }

/-- `SRST` forgets the custom alphabet with `AVALID` and the latched word with `DONE` (R186). -/
theorem Inv.clearRegisters {s : State} (h : Inv s) : Inv (clearRegisters s) :=
  { h with
    status := by simp [StatusLegal]
    report := by simp [ReportConsistent]
    custom := by simp [CustomConsistent]
    idle := by simp [IdleCommandZero] }

/-- Hardware reset is `SRST` with no byte listed any more (R230, R231). -/
theorem Inv.hardReset {s : State} (h : Inv s) : Inv (hardReset s) :=
  { h.clearRegisters with
    memory := hardReset_memory_wf s
    cells := by simp [CellsInBuffers] }

/-- The common tail of a command sets `DONE` alone, which agrees with a report that shows no error (R182). -/
theorem Inv.finish {s : State} (h : Inv s) (he : s.err = false) : Inv (finish s) :=
  { h with
    status := by simp [StatusLegal]
    report := by simpa [ReportConsistent, he] using h.report
    idle := by simp [IdleCommandZero] }

/-- An error raised keeps the custom slot, or forgets it with `AVALID` (R200). -/
theorem CustomConsistent.raise {s : State} (h : CustomConsistent s) (e : CmdError) (b : Byte) (p : Word) :
    CustomConsistent (raise e b p s) := by
  by_cases he : e = .alphabetError
  · simp [CustomConsistent, he]
  · simpa [CustomConsistent, customAlphabet, he] using h

/-- An error raised sets `ERR` and a code other than 0 together (R200); the reserved codes are not raised (R194). -/
theorem Inv.raise {s : State} (h : Inv s) {e : CmdError} (b : Byte) (p : Word)
    (hc : codeOf e ∈ [0#8, 1#8, 2#8, 5#8, 6#8, 7#8, 8#8, 9#8]) : Inv (raise e b p s) where
  config := by simpa using h.config
  status := by simp [StatusLegal]
  report := ⟨by simp [codeOf_ne_zero], by simp, by simpa using hc⟩
  custom := h.custom.raise e b p
  memory := by simpa using h.memory
  cells := by simpa [CellsInBuffers] using h.cells
  idle := by simp [IdleCommandZero]

/-- The tables `LDALPHA` loads are inverse to each other by construction (R120). -/
theorem Inv.loadCustom {s : State} (h : Inv s) {sym : Vector Byte 58} (hd : sym.toList.Nodup) :
    Inv (loadCustom sym s) :=
  { h with custom := fun _ => alphabetOf_wf hd }

theorem Inv.writeByte {s : State} (h : Inv s) {off : Nat} (v : Byte) (hoff : isBufferByte s.cfg off = true) :
    Inv (writeByte off v s) :=
  { h with
    memory := writeByte_wf s off v h.memory
    cells := fun c hc => by
      rcases mem_insertCell hc with rfl | hc
      · exact hoff
      · exact h.cells c hc }

theorem Inv.writeBytes {s : State} (h : Inv s) {base : Nat} {vs : List Byte}
    (hin : ∀ i < vs.length, isBufferByte s.cfg (base + i) = true) : Inv (writeBytes base vs s) := by
  induction vs generalizing base s with
  | nil => exact h
  | cons v vs ih =>
    refine ih (h.writeByte v (hin 0 (by simp))) fun i hi => ?_
    rw [writeByte_cfg, Nat.add_assoc, Nat.add_comm 1]
    exact hin (i + 1) (by simpa using hi)

/-- A text no longer than `TBUF` is listed inside it (R140). -/
theorem Inv.commitText {s : State} (h : Inv s) {e : List Byte} (hl : e.length ≤ s.cfg.tMax.toNat) :
    Inv (commitText e s) :=
  { h.writeBytes fun i hi => (isBufferByte_iff s.cfg (tbufBase + i)).2 (by simp only [tbufBase]; omega) with }

/-- A payload no longer than `BBUF` is listed inside it (R160). -/
theorem Inv.commitPayload {s : State} (h : Inv s) {r : List Byte} (hl : r.length ≤ s.cfg.nMax.toNat) :
    Inv (commitPayload r s) :=
  { h.writeBytes fun i hi => (isBufferByte_iff s.cfg (bbufBase + i)).2 (by simp only [bbufBase]; omega) with }

/-- Staged symbols of which none repeats an earlier one are distinct in the table they make (R120). -/
theorem stagedTable_nodup {s : State} (h : firstRepeat [] (staged s) = none) : (stagedTable s).toList.Nodup :=
  ((firstRepeat_eq_none_iff [] (staged s)).1 h).1

/-! ## The three agents keep the invariant -/

theorem Success.inv {i : Instr} {s t : State} (hs : Success i s t) (h : Inv s) (he : s.err = false) : Inv t := by
  cases hs with
  | nop _ => exact h.finish he
  | encode a A _ _ _ hl => exact (h.commitText hl).finish (by simpa using he)
  | decode a A _ _ _ _ hl => exact (h.commitPayload hl).finish (by simpa using he)
  | ldalpha _ _ hr => exact (h.loadCustom (stagedTable_nodup hr)).finish he
  | digitof a b A _ _ => exact (h.setRes _).finish he
  | symbolof a b A _ _ hd => exact (h.setRes _).finish he

theorem Inv.exec {i : Instr} {s t : State} (h : Inv s) (he : s.err = false) (ht : exec i s = .next t) : Inv t := by
  obtain ⟨t', ht', hcases⟩ := exec_cases i s
  obtain rfl : t = t' := by simpa [ht] using ht'
  rcases hcases with ⟨e, b, p, rfl, -, hc⟩ | ⟨-, rfl⟩ | hs
  · exact h.raise b p (by simp only [List.mem_cons] at hc ⊢; tauto)
  · exact h.clearRegisters
  · exact hs.inv h he

theorem Inv.complete {s t : State} (h : Inv s) (he : s.err = false) (ht : complete s = .next t) : Inv t := by
  obtain ⟨t', ht', hcases⟩ := complete_cases s
  obtain rfl : t = t' := by simpa [ht] using ht'
  rcases hcases with ⟨r, -, rfl⟩ | ⟨i, -, hi⟩
  · exact h.raise 0 0 (by decide)
  · exact h.exec he hi

theorem AccessEffect.inv {a : HostAccess} {s t : State} (ha : AccessEffect a s t) (h : Inv s) : Inv t := by
  cases ha with
  | nothing => exact h
  | read r _ => exact h.reply r
  | readBusy r _ _ => exact (h.reply r).countDraw
  | issue w _ _ => exact h.issue w
  | blen v _ => exact { h with }
  | tlen v _ => exact { h with }
  | alen v _ => exact { h with }
  | byte off v _ hoff => exact h.writeByte v hoff

/-- Settles O35, by what the step did: a host access (`AccessEffect.inv`), no completion while idle, a completion while
busy (`Inv.complete`), where `StatusLegal` gives `ERR = 0`, or hardware reset (`Inv.hardReset`). -/
theorem everyStepKeepsTheInvariant : Obligations.EveryStepKeepsTheInvariant := by
  unfold Obligations.EveryStepKeepsTheInvariant
  intro s t h hst
  rcases step_cases hst with ⟨a, -, -, ha⟩ | ⟨-, -, rfl⟩ | ⟨-, hb, hc⟩ | ⟨-, rfl⟩
  · exact ha.inv h.takeEvent
  · exact h.takeEvent
  · exact h.takeEvent.complete (h.err_of_busy hb) hc
  · exact h.takeEvent.hardReset

theorem defaultConfig_wf : defaultConfig.wf := by
  unfold Config.wf
  decide

/-- Settles O36: nothing is loaded, listed, reported or latched at reset. -/
theorem resetMeetsTheInvariant : Obligations.ResetMeetsTheInvariant where
  config := defaultConfig_wf
  status := by simp [StatusLegal, State.reset]
  report := by simp [ReportConsistent, State.reset]
  custom := by simp [CustomConsistent, State.reset]
  memory := reset_memory_wf
  cells := by simp [CellsInBuffers, State.reset]
  idle := by simp [IdleCommandZero, State.reset]

end Sys2Proof.Machine
end

/-! # The registers as the host sees them (spec/10_state.md R22 to R49) -/

section
namespace Sys2Proof.Machine

theorem regOffset_lt_window (r : Reg) : regOffset r < WINDOW := by cases r <;> decide

theorem regAt_regOffset (r : Reg) : regAt (regOffset r) = some r := (regAt_eq_some_iff _ _).2 rfl

/-- A register's value does not depend on what comes next. -/
theorem readReg_pending (r : Reg) (s : State) (es : List Event) :
    readReg r { s with pending := es } = readReg r s := by
  cases r <;> rfl

/-- A step on a pending read of a register while idle answers the register's value (R63). -/
theorem step_read32_idle {s : State} {r : Reg} {rest : List Event} (hb : s.busy = false)
    (hp : s.pending = .access (.read32 (regOffset r)) :: rest) :
    step s = .next (reply (.word (readReg r s)) { s with pending := rest }) := by
  have hr : hostRead32 (regOffset r) { s with pending := rest } = _ := hostRead32_idle hb (regAt_regOffset r)
  rw [step_access hp, hostAccess, HostAccess.off, if_pos (regOffset_lt_window r), hr, readReg_pending]

/-- A 32-bit write to a register while idle (R63). -/
theorem hostWrite32_idle {s : State} {off : Nat} {r : Reg} (v : Word) (hb : s.busy = false)
    (hr : regAt off = some r) : hostWrite32 off v s = writeReg r v s := by
  simp [hostWrite32, hr, hb]

/-- A step on a pending write to a register while idle is that write (R63). -/
theorem step_write32_idle {s : State} (r : Reg) {v : Word} {rest : List Event} (hb : s.busy = false)
    (hp : s.pending = .access (.write32 (regOffset r) v) :: rest) :
    step s = .next (writeReg r v { s with pending := rest }) := by
  have hr : hostWrite32 (regOffset r) v { s with pending := rest } = _ := hostWrite32_idle v hb (regAt_regOffset r)
  rw [step_access hp, hostAccess, HostAccess.off, if_pos (regOffset_lt_window r), hr]

/-- Settles O30: a value stands at register offsets alone, and it is the register's (`idleRegisterValue_regOffset`). -/
theorem idleRegisterReadReturnsItsFields : Obligations.IdleRegisterReadReturnsItsFields := by
  unfold Obligations.IdleRegisterReadReturnsItsFields
  intro s off v rest hb hp hv
  obtain ⟨r, hr⟩ := regAt_of_idleRegisterValue hv
  obtain rfl := (regAt_eq_some_iff off r).1 hr
  obtain rfl : (readReg r s).toNat = v := by simpa [idleRegisterValue_regOffset] using hv
  refine ⟨(readReg r s).isLt, ?_⟩
  rw [step_read32_idle hb hp, BitVec.ofNat_toNat, BitVec.setWidth_eq]
  rfl

/-- Settles O31: a length register keeps the low bits of the word, and a read-only register's write is no change of
state, by `writeReg` at each offset. -/
theorem idleRegisterWritesStoreFieldsOrAreIgnored : Obligations.IdleRegisterWritesStoreFieldsOrAreIgnored := by
  unfold Obligations.IdleRegisterWritesStoreFieldsOrAreIgnored
  intro s v rest hb
  refine ⟨fun hp => ⟨v.extractLsb' 0 16, by simp, step_write32_idle .blen hb hp⟩,
    fun hp => ⟨v.extractLsb' 0 16, by simp, step_write32_idle .tlen hb hp⟩,
    fun hp => ⟨v.extractLsb' 0 8, by simp, step_write32_idle .alen hb hp⟩, fun off hoff hp => ?_⟩
  simp only [List.mem_cons, List.not_mem_nil, or_false] at hoff
  rcases hoff with rfl | rfl | rfl | rfl | rfl | rfl | rfl
  · exact step_write32_idle .id hb hp
  · exact step_write32_idle .cap hb hp
  · exact step_write32_idle .status hb hp
  · exact step_write32_idle .errcode hb hp
  · exact step_write32_idle .errbyte hb hp
  · exact step_write32_idle .errpos hb hp
  · exact step_write32_idle .res hb hp

/-- Settles O38, by what the step did: a host access sets `BUSY` and `CMD` by issue alone (`AccessEffect.frame`), and a
completion changes `CMD` for `SRST` alone (`complete_frame`). -/
theorem busyAndCommandChangeOnlyByIssueCompletionOrReset :
    Obligations.BusyAndCommandChangeOnlyByIssueCompletionOrReset := by
  unfold Obligations.BusyAndCommandChangeOnlyByIssueCompletionOrReset
  intro s t hst
  rcases step_cases hst with ⟨a, hn, -, ha⟩ | ⟨hn, hb, rfl⟩ | ⟨hn, hb, hc⟩ | ⟨hn, rfl⟩
  · obtain ⟨-, -, -, hkeep, hset, hcmd⟩ := ha.frame
    simp only [takeEvent_busy, takeEvent_lcmd] at hkeep hset hcmd
    simp only [hn, Event.access.injEq]
    exact ⟨hset, fun hb hb' => by simp [(hkeep hb).1] at hb', fun hb _ => (hkeep hb).2, fun hne => .inl (hcmd hne)⟩
  · exact ⟨by simp [hb], fun _ _ => .inl hn, fun _ _ => rfl, fun hne => absurd rfl hne⟩
  · obtain ⟨-, hidle, -, -, hcmd⟩ := complete_frame hc
    exact ⟨by simp [hb], fun _ _ => .inl hn, by simp [hidle],
      fun hne => .inr (.inl ⟨hb, hn, hcmd.resolve_left hne⟩)⟩
  · exact ⟨by simp, fun _ _ => .inr hn, by simp, fun _ => .inr (.inr ⟨hn, rfl⟩)⟩

/-- Settles O33: the fields of `State.reset`, and `CAP` with the default capacities (R6). -/
theorem resetStateHasTheSpecifiedValues : Obligations.ResetStateHasTheSpecifiedValues :=
  ⟨rfl, rfl, rfl, rfl, rfl, rfl, rfl, rfl, rfl, rfl, rfl, rfl, rfl, rfl⟩

end Sys2Proof.Machine
end

/-! # The host port and its window (spec/20_memory.md R61 to R71) -/

section
namespace Sys2Proof.Machine

/-! ## Only an access outside the window stops the machine (R61, R62) -/

theorem hostAccess_outside {a : HostAccess} (h : WINDOW ≤ a.off) (s : State) :
    hostAccess a s = .fault (.outsideWindow a.off) := if_neg h.not_gt

/-- A step stops for no other reason than the access it takes. -/
theorem exists_step_of_nextEvent_wf {s : State} (h : ∀ a, nextEvent s = .access a → a.wf = true) :
    ∃ t, step s = .next t := by
  unfold step
  cases he : nextEvent s with
  | access a =>
    obtain ⟨t, ht, -⟩ := hostAccess_cases a (takeEvent s) (h a he)
    exact ⟨t, ht⟩
  | complete =>
    by_cases hb : s.busy = true
    · obtain ⟨t, ht, -⟩ := complete_cases (takeEvent s)
      exact ⟨t, by simpa [perform, hb] using ht⟩
    · exact ⟨takeEvent s, by simp [perform, hb]⟩
  | hardReset => exact ⟨_, rfl⟩

/-- Whatever a step does, it takes the first pending event and adds none. -/
theorem pending_of_step {s t : State} (h : step s = .next t) : t.pending = s.pending.tail := by
  rcases step_cases h with ⟨a, -, -, ha⟩ | ⟨-, -, rfl⟩ | ⟨-, -, hc⟩ | ⟨-, rfl⟩
  · obtain ⟨-, hp, -⟩ := ha.frame
    exact hp
  · rfl
  · obtain ⟨-, -, hp, -⟩ := complete_frame hc
    exact hp
  · rfl

theorem mem_pending_of_nextEvent {s : State} {a : HostAccess} (h : nextEvent s = .access a) :
    Event.access a ∈ s.pending := by
  unfold nextEvent at h
  cases hp : s.pending with
  | nil => simp [hp] at h
  | cons e rest =>
    obtain rfl : e = .access a := by simpa [hp] using h
    exact List.mem_cons_self

theorem AccessesInWindow.of_step {s t : State} (h : AccessesInWindow s) (hst : step s = .next t) :
    AccessesInWindow t :=
  fun a ha => h a (List.mem_of_mem_tail (pending_of_step hst ▸ ha))

/-- Settles O10: the next event is a pending one (`exists_step_of_nextEvent_wf`), and no step adds one
(`AccessesInWindow.of_step`). -/
theorem onlyAnAccessOutsideTheWindowStops : Obligations.OnlyAnAccessOutsideTheWindowStops := by
  unfold Obligations.OnlyAnAccessOutsideTheWindowStops
  refine ⟨fun s hin => ?_, fun s a rest hp ha => ?_⟩
  · obtain ⟨t, ht⟩ := exists_step_of_nextEvent_wf fun a ha => hin a (mem_pending_of_nextEvent ha)
    exact ⟨t, ht, hin.of_step ht⟩
  · rw [step_access hp, hostAccess_outside ha]

/-! ## Accesses that are not valid, and the buffers while idle (R63, R64) -/

section
variable {s : State} {off : Nat} {rest : List Event}

/-! A step on each of the four accesses inside the window (R62). -/

theorem step_read32 (hw : off < WINDOW) (hp : s.pending = .access (.read32 off) :: rest) :
    step s = .next (hostRead32 off { s with pending := rest }) := (step_access hp).trans (if_pos hw)

theorem step_write32 {v : Word} (hw : off < WINDOW) (hp : s.pending = .access (.write32 off v) :: rest) :
    step s = .next (hostWrite32 off v { s with pending := rest }) := (step_access hp).trans (if_pos hw)

theorem step_read8 (hw : off < WINDOW) (hp : s.pending = .access (.read8 off) :: rest) :
    step s = .next (hostRead8 off { s with pending := rest }) := (step_access hp).trans (if_pos hw)

theorem step_write8 {v : Byte} (hw : off < WINDOW) (hp : s.pending = .access (.write8 off v) :: rest) :
    step s = .next (hostWrite8 off v { s with pending := rest }) := (step_access hp).trans (if_pos hw)

variable (s)

/-! What each access is where it has no target (R64), busy or not. -/

theorem hostRead32_invalid (h : off ∉ REGISTER_OFFSETS) : hostRead32 off s = reply (.word 0) s := by
  simp [hostRead32, regAt_eq_none h]

theorem hostWrite32_invalid (h : off ∉ REGISTER_OFFSETS) (v : Word) : hostWrite32 off v s = s := by
  simp [hostWrite32, regAt_eq_none h]

theorem hostRead8_invalid (h : isBufferByte s.cfg off = false) : hostRead8 off s = reply (.byte 0) s := by
  simp [hostRead8, h]

theorem hostWrite8_invalid (h : isBufferByte s.cfg off = false) (v : Byte) : hostWrite8 off v s = s := by
  simp [hostWrite8, h]

/-! What the 8-bit accesses are on a buffer byte while idle (R63). -/

theorem hostRead8_idle (hb : s.busy = false) (h : isBufferByte s.cfg off = true) :
    hostRead8 off s = reply (.byte (readByte s off)) s := by
  simp [hostRead8, hb, h]

theorem hostWrite8_idle (hb : s.busy = false) (h : isBufferByte s.cfg off = true) (v : Byte) :
    hostWrite8 off v s = writeByte off v s := by
  simp [hostWrite8, hb, h]

end

/-- The buffers end inside the window, as the capacities are 16 bits wide (R6, R61). -/
theorem lt_window_of_isBufferByte {c : Config} {off : Nat} (h : isBufferByte c off = true) : off < WINDOW := by
  have hn := c.nMax.isLt
  have ht := c.tMax.isLt
  rw [isBufferByte_iff] at h
  unfold WINDOW
  omega

/-- Settles O29: a 32-bit access finds no register, an 8-bit access no buffer byte, before `BUSY` is asked. -/
theorem invalidAccessesAreInert : Obligations.InvalidAccessesAreInert := by
  unfold Obligations.InvalidAccessesAreInert
  refine fun s off rest hw => ⟨fun hreg => ⟨fun hp => ?_, fun v hp => ?_⟩, fun hbuf => ?_⟩
  · rw [step_read32 hw hp, hostRead32_invalid _ hreg]
    rfl
  · rw [step_write32 hw hp, hostWrite32_invalid _ hreg]
  · have hbyte : isBufferByte s.cfg off = false := Bool.eq_false_iff.2 ((isBufferByte_iff _ _).not.2 hbuf)
    refine ⟨fun hp => ?_, fun v hp => ?_⟩
    · rw [step_read8 hw hp, hostRead8_invalid { s with pending := rest } hbyte]
      rfl
    · rw [step_write8 hw hp, hostWrite8_invalid { s with pending := rest } hbyte]

/-- Settles O32: the write is `writeByte`, whose reads `readByte_writeByte` gives. -/
theorem bufferByteWriteThenRead : Obligations.BufferByteWriteThenRead := by
  unfold Obligations.BufferByteWriteThenRead
  intro s off v rest hb hbuf
  have hbyte : isBufferByte s.cfg off = true := (isBufferByte_iff _ _).2 hbuf
  have hw : off < WINDOW := lt_window_of_isBufferByte hbyte
  refine ⟨fun hp => ⟨writeByte off v { s with pending := rest }, ?_, ?_, fun x hx => ?_, rfl⟩, fun hp => ?_⟩
  · rw [step_write8 hw hp, hostWrite8_idle { s with pending := rest } hb hbyte]
  · rw [readByte_writeByte, if_pos rfl]
  · rw [readByte_writeByte, if_neg hx]
    rfl
  · rw [step_read8 hw hp, hostRead8_idle { s with pending := rest } hb hbyte]
    rfl

/-! ## A command sees the inputs of its issue (R71 (d), R237) -/

/-- Settles O39, by induction on the accesses: each leaves the block alone (`hostAccess_busy`), so the engine is still
busy for the next. -/
theorem commandSeesTheInputsOfItsIssue : Obligations.CommandSeesTheInputsOfItsIssue := by
  unfold Obligations.CommandSeesTheInputsOfItsIssue
  intro as
  induction as with
  | nil =>
    rintro s rest - - rfl
    exact ⟨0, [], rfl⟩
  | cons a as ih =>
    intro s rest hb hwf hp
    obtain ⟨ha, has⟩ := List.forall_mem_cons.1 hwf
    obtain ⟨n, rs, hfirst⟩ := hostAccess_busy (s := { s with pending := as.map .access ++ rest }) hb ha
    obtain ⟨m, rs', hrun⟩ := ih { s with
      pending := as.map .access ++ rest, draws := s.draws + n, replies := rs ++ s.replies } rest hb has rfl
    refine ⟨n + m, rs' ++ rs, ?_⟩
    rw [List.length_cons, run_succ _ ((step_access hp).trans hfirst), hrun, Nat.add_assoc, List.append_assoc]

end Sys2Proof.Machine
end

/-! # Decoding and encoding of the command word (spec/30_encoding.md R90 to R98) -/

section
namespace Sys2Proof

/-! ## The decoder answers a command exactly on that command's own word (R95) -/

@[simp] theorem decFields_encFields (i : Instr) : decFields (encFields i) = .instr i := by
  cases i <;> simp [decFields, encFields]

/-- `decFields` inverts `encFields` and answers no command elsewhere. -/
theorem decFields_eq_instr_iff {f : CommandFields} {i : Instr} : decFields f = .instr i ↔ encFields i = f :=
  ⟨encFields_of_decFields, fun h => h ▸ decFields_encFields i⟩

@[simp] theorem fieldsOf_encode (i : Instr) : fieldsOf (encode i) = encFields i := fieldsOf_packFields _

theorem encode_eq_iff {w : Word} {i : Instr} : encode i = w ↔ encFields i = fieldsOf w := by
  rw [eq_iff_fieldsOf_eq, fieldsOf_encode]

theorem dec_eq_instr_iff {w : Word} {i : Instr} : dec w = .instr i ↔ encode i = w :=
  decFields_eq_instr_iff.trans encode_eq_iff.symm

/-- Settles O1: a command's own word is the one that decodes to it (`dec_eq_instr_iff`). -/
theorem decodeOfEncodeIsTheCommand : Obligations.DecodeOfEncodeIsTheCommand := by
  unfold Obligations.DecodeOfEncodeIsTheCommand
  exact fun i _ => dec_eq_instr_iff.2 rfl

/-! ## The rows of the opcode map (R92) -/

/-- The word of every command lies in that command's row. -/
theorem encode_and_tableMask (i : Instr) : encode i &&& tableMask i = tableMatch i :=
  match i with
  | .nop => Laws.TableRow.nop
  | .encode a => Laws.TableRow.encode a
  | .decode a => Laws.TableRow.decode a
  | .ldalpha => Laws.TableRow.ldalpha
  | .digitof a b => Laws.TableRow.digitof a b
  | .symbolof a d => Laws.TableRow.symbolof a d
  | .srst => Laws.TableRow.srst

/-- The command of the row of `i` whose operands are those of the fields `f`. -/
def Instr.withOperands (f : CommandFields) : Instr → Instr
  | .nop => .nop
  | .encode _ => .encode (aselOfBit f.asel)
  | .decode _ => .decode (aselOfBit f.asel)
  | .ldalpha => .ldalpha
  | .digitof _ _ => .digitof (aselOfBit f.asel) f.imm8
  | .symbolof _ _ => .symbolof (aselOfBit f.asel) f.imm8
  | .srst => .srst

@[simp] theorem tableMask_withOperands (f : CommandFields) (i : Instr) :
    tableMask (i.withOperands f) = tableMask i := by
  cases i <;> rfl

@[simp] theorem tableMatch_withOperands (f : CommandFields) (i : Instr) :
    tableMatch (i.withOperands f) = tableMatch i := by
  cases i <;> rfl

/-! What each format's mask keeps of a word (R91, R92). -/

theorem fieldsOf_and_maskZ (w : Word) : fieldsOf (w &&& 0xFFFFFFFF#32) = fieldsOf w :=
  congrArg fieldsOf BitVec.and_allOnes

theorem fieldsOf_and_maskS (w : Word) : fieldsOf (w &&& 0xFFFFFEFF#32) = { fieldsOf w with asel := 0#1 } := by
  have hm : fieldsOf 0xFFFFFEFF#32 =
      ⟨BitVec.allOnes 8, 0#1, BitVec.allOnes 7, BitVec.allOnes 8, BitVec.allOnes 8⟩ := by decide
  simp only [fieldsOf_and, hm, BitVec.and_allOnes, BitVec.and_zero]

theorem fieldsOf_and_maskI (w : Word) :
    fieldsOf (w &&& 0xFF00FEFF#32) = { fieldsOf w with asel := 0#1, imm8 := 0#8 } := by
  have hm : fieldsOf 0xFF00FEFF#32 = ⟨BitVec.allOnes 8, 0#1, BitVec.allOnes 7, 0#8, BitVec.allOnes 8⟩ := by decide
  simp only [fieldsOf_and, hm, BitVec.and_allOnes, BitVec.and_zero]

/-- A row's match column is its opcode with every other field 0 (R92). -/
theorem fieldsOf_tableMatch (i : Instr) : fieldsOf (tableMatch i) = ⟨(encFields i).op, 0#1, 0#7, 0#8, 0#8⟩ := by
  cases i <;> simp only [tableMatch, encFields] <;> decide

/-- The masks leave open exactly the operands: a word that lies in a row is the word of that row's command with the
operands read from the word itself. -/
theorem encode_withOperands {w : Word} {i : Instr} (h : w &&& tableMask i = tableMatch i) :
    encode (i.withOperands (fieldsOf w)) = w := by
  rw [eq_iff_fieldsOf_eq, fieldsOf_tableMatch] at h
  rw [encode_eq_iff]
  cases i with
  | nop | ldalpha | srst =>
    rw [tableMask, fieldsOf_and_maskZ] at h
    exact h.symm
  | encode | decode | digitof | symbolof =>
    simp only [tableMask, fieldsOf_and_maskS, fieldsOf_and_maskI] at h
    generalize fieldsOf w = f at h ⊢
    cases f
    simp_all [encFields, Instr.withOperands]

/-- Settles O2: a decoded word is the command's own (`dec_eq_instr_iff`), so it lies in the command's row; and a word in
a row is the word of that row's command with the word's operands (`encode_withOperands`). -/
theorem wordSelectsARowExactlyByMaskAndMatch : Obligations.WordSelectsARowExactlyByMaskAndMatch := by
  unfold Obligations.WordSelectsARowExactlyByMaskAndMatch
  refine ⟨fun w i h => ?_, fun w i h => ?_⟩
  · obtain rfl : encode i = w := dec_eq_instr_iff.1 h
    exact ⟨encode_and_tableMask i, rfl⟩
  · exact ⟨i.withOperands (fieldsOf w), dec_eq_instr_iff.2 (encode_withOperands h), tableMatch_withOperands _ i,
      tableMask_withOperands _ i⟩

/-! ## Illegal words (R96) -/

/-! The opcodes of each format (R92). -/

theorem formatOf_eq_Z_iff {op : BitVec 8} : formatOf op = some .Z ↔ op = 0x00#8 ∨ op = 0x03#8 ∨ op = 0x06#8 := by
  revert op; decide

theorem formatOf_eq_S_iff {op : BitVec 8} : formatOf op = some .S ↔ op = 0x01#8 ∨ op = 0x02#8 := by
  revert op; decide

theorem formatOf_eq_I_iff {op : BitVec 8} : formatOf op = some .I ↔ op = 0x04#8 ∨ op = 0x05#8 := by
  revert op; decide

theorem formatOf_eq_none_iff {op : BitVec 8} : formatOf op = none ↔ 0x07 ≤ op.toNat := by
  revert op; decide

/-- Fields are not legal exactly for one of the reasons R96 lists. -/
theorem CommandFields.wf_eq_false_iff {f : CommandFields} : f.wf = false ↔
    formatOf f.op = none ∨ f.rsv0 ≠ 0#7 ∨ f.rsv1 ≠ 0#8 ∨
      (formatOf f.op = some .Z ∧ (f.asel ≠ 0#1 ∨ f.imm8 ≠ 0#8)) ∨ (formatOf f.op = some .S ∧ f.imm8 ≠ 0#8) := by
  unfold CommandFields.wf
  cases formatOf f.op with
  | none => simp
  | some m => cases m <;> simp <;> tauto

@[simp] theorem encFields_wf (i : Instr) : (encFields i).wf = true := by
  cases i <;> rfl

/-- The legal fields are those of the commands' own words (R91, R92). -/
theorem CommandFields.wf_iff {f : CommandFields} : f.wf = true ↔ ∃ i, encFields i = f := by
  refine ⟨fun h => ?_, fun ⟨i, hi⟩ => hi ▸ encFields_wf i⟩
  obtain ⟨op, asel, rsv0, imm8, rsv1⟩ := f
  simp only [CommandFields.wf, Bool.and_eq_true, beq_iff_eq] at h
  obtain ⟨⟨rfl, rfl⟩, hf⟩ := h
  split at hf
  next hZ =>
    obtain ⟨rfl, rfl⟩ : asel = 0#1 ∧ imm8 = 0#8 := by simpa using hf
    rcases formatOf_eq_Z_iff.1 hZ with rfl | rfl | rfl
    · exact ⟨.nop, rfl⟩
    · exact ⟨.ldalpha, rfl⟩
    · exact ⟨.srst, rfl⟩
  next hS =>
    obtain rfl : imm8 = 0#8 := by simpa using hf
    rcases formatOf_eq_S_iff.1 hS with rfl | rfl
    · exact ⟨.encode (aselOfBit asel), by simp [encFields]⟩
    · exact ⟨.decode (aselOfBit asel), by simp [encFields]⟩
  next hI =>
    rcases formatOf_eq_I_iff.1 hI with rfl | rfl
    · exact ⟨.digitof (aselOfBit asel) imm8, by simp [encFields]⟩
    · exact ⟨.symbolof (aselOfBit asel) imm8, by simp [encFields]⟩
  next => cases hf

/-- The decoder rejects exactly the words whose fields are not legal (R95, R96). -/
theorem dec_illegal_iff {w : Word} : (∃ r, dec w = .illegal r) ↔ (fieldsOf w).wf = false := by
  rw [← Bool.not_eq_true, CommandFields.wf_iff]
  simp only [← encode_eq_iff, ← dec_eq_instr_iff]
  cases dec w <;> simp

/-- Settles O3: the reasons of `CommandFields.wf_eq_false_iff`, with the fields read as numbers (`fieldsOf_toNat`). -/
theorem illegalWordsAreExactlyThoseOfR96 : Obligations.IllegalWordsAreExactlyThoseOfR96 := by
  unfold Obligations.IllegalWordsAreExactlyThoseOfR96
  intro w
  obtain ⟨hop, hasel, hrsv0, himm8, hrsv1⟩ := fieldsOf_toNat w
  rw [dec_illegal_iff, CommandFields.wf_eq_false_iff, formatOf_eq_none_iff, formatOf_eq_Z_iff, formatOf_eq_S_iff]
  simp [← BitVec.toNat_inj, hop, hasel, hrsv0, himm8, hrsv1]

/-! ## The words of R98 -/

/-- Settles O4: each word is the one its command encodes to (`dec_eq_instr_iff`). -/
theorem writtenOutWordsDecode : Obligations.WrittenOutWordsDecode := by
  unfold Obligations.WrittenOutWordsDecode
  simp only [dec_eq_instr_iff]
  decide

end Sys2Proof
end

/-! # The alphabets and their commands (spec/40_alphabet.md R110 to R125) -/

section
namespace Sys2Proof.Machine

/-! ## The two tables of an alphabet (R112, R115) -/

/-- The inverse-table entry of a symbol is its digit. -/
theorem Alphabet.wf.toNat_invOf_symbolOf {A : Alphabet} (h : A.wf) (d : Digit) :
    (invOf A (symbolOf A d)).toNat = d.val := by
  rw [h.invOf_symbolOf, toNat_digit]

/-- The inverse-table entry of a byte that is no symbol is `SENTINEL`. -/
theorem Alphabet.wf.invOf_eq_sentinel {A : Alphabet} (h : A.wf) {b : Byte} (hb : ∀ d : Digit, symbolOf A d ≠ b) :
    invOf A b = SENTINEL := by
  by_contra hne
  obtain ⟨d, hd, -⟩ := h.exists_digit hne
  exact hb d hd

theorem Alphabet.wf.digitOf_symbolOf {A : Alphabet} (h : A.wf) (d : Digit) :
    digitOf A (symbolOf A d) = some d.val := by
  rw [digitOf, if_neg (by rw [h.invOf_symbolOf]; exact digit_ne_sentinel d), h.toNat_invOf_symbolOf]

/-- `digitOf` is the inverse of `symbolOf`, and is defined on the symbols alone. -/
theorem Alphabet.wf.digitOf_eq_some_iff {A : Alphabet} (h : A.wf) {b : Byte} {n : Nat} :
    digitOf A b = some n ↔ ∃ hn : n < 58, symbolOf A ⟨n, hn⟩ = b := by
  constructor
  · intro hd
    have hne : invOf A b ≠ SENTINEL := fun he => by simp [digitOf, he] at hd
    obtain ⟨d, hsym, hval⟩ := h.exists_digit hne
    obtain rfl : d.val = n := by simpa [digitOf, hne, hval] using hd
    exact ⟨d.isLt, hsym⟩
  · rintro ⟨hn, rfl⟩
    exact h.digitOf_symbolOf ⟨n, hn⟩

/-- The 58 bytes that are symbols, as numbers, in the order of their digits. -/
def symbolNumbers (A : Alphabet) : List Nat := (List.finRange 58).map (fun d => (symbolOf A d).toNat)

theorem Alphabet.wf.symbolNumbers_nodup {A : Alphabet} (h : A.wf) : (symbolNumbers A).Nodup :=
  (List.nodup_finRange 58).map fun _ _ hde => h.symbolOf_injective (BitVec.eq_of_toNat_eq hde)

theorem mem_symbolNumbers {A : Alphabet} {n : Nat} :
    n ∈ symbolNumbers A ↔ n < 256 ∧ ∃ d : Digit, symbolOf A d = BitVec.ofNat 8 n := by
  simp only [symbolNumbers, List.mem_map, List.mem_finRange, true_and]
  constructor
  · rintro ⟨d, rfl⟩
    exact ⟨(symbolOf A d).isLt, d, by simp⟩
  · rintro ⟨hn, d, hd⟩
    exact ⟨d, by rw [hd, BitVec.toNat_ofNat, Nat.mod_eq_of_lt hn]⟩

theorem Alphabet.wf.digitOf_ne_none_iff {A : Alphabet} (h : A.wf) {b : Byte} :
    digitOf A b ≠ none ↔ ∃ d : Digit, symbolOf A d = b := by
  rw [Option.ne_none_iff_exists']
  constructor
  · rintro ⟨n, hn⟩
    obtain ⟨hlt, hsym⟩ := h.digitOf_eq_some_iff.1 hn
    exact ⟨⟨n, hlt⟩, hsym⟩
  · rintro ⟨d, rfl⟩
    exact ⟨d.val, h.digitOf_symbolOf d⟩

/-- The bytes with a digit are the 58 symbols (R112). -/
theorem Alphabet.wf.bytesWithDigit_perm {A : Alphabet} (h : A.wf) :
    ((List.range 256).filter (fun n => !(digitOf A (BitVec.ofNat 8 n) == none))).Perm (symbolNumbers A) := by
  refine (List.perm_ext_iff_of_nodup (List.nodup_range.filter _) h.symbolNumbers_nodup).2 fun n => ?_
  simp [mem_symbolNumbers, ← h.digitOf_ne_none_iff, Option.isSome_iff_ne_none]

/-- Settles O47: `digitOf` inverts `symbolOf` on the symbols alone (`digitOf_eq_some_iff`), and of the 256 bytes all but
the 58 symbols (`bytesWithDigit_perm`) have no digit. -/
theorem symbolAndDigitTablesAreInverse : Obligations.SymbolAndDigitTablesAreInverse := by
  unfold Obligations.SymbolAndDigitTablesAreInverse
  intro A h
  refine ⟨h.digitOf_symbolOf, fun b n => h.digitOf_eq_some_iff.1, fun b => ?_, ?_⟩
  · rw [h.digitOf_eq_some_iff, eq_comm (a := b)]
    exact ⟨fun ⟨_, hb⟩ => hb, fun hb => ⟨by decide, hb⟩⟩
  · have hsplit := List.length_eq_length_filter_add (l := List.range 256)
      (fun n => digitOf A (BitVec.ofNat 8 n) == none)
    have hdigits := h.bytesWithDigit_perm.length_eq
    simp only [symbolNumbers, List.length_map, List.length_finRange] at hdigits
    rw [hdigits, List.length_range] at hsplit
    omega

/-! ## The selected alphabet and `DIGITOF` (R116, R125) -/

theorem raise_alphabetNotLoaded_eq (s : State) : raise .alphabetNotLoaded 0 0 s =
    { s with busy := false, done := true, err := true, errcode := 8#8, errbyte := 0#8, errpos := 0#32 } := rfl

/-- No command that names the custom alphabet runs while none is loaded. -/
theorem exec_of_customUnloaded {s : State} {i : Instr} (hv : s.avalid = false)
    (hi : i = .encode .cust ∨ i = .decode .cust ∨ (∃ b, i = .digitof .cust b) ∨ (∃ d, i = .symbolof .cust d)) :
    exec i s = .next (raise .alphabetNotLoaded 0 0 s) := by
  have hsel : selectAlphabet .cust s = none := by simp [selectAlphabet, hv]
  rcases hi with rfl | rfl | ⟨b, rfl⟩ | ⟨d, rfl⟩
  · simp [exec, execEncode, hsel]
  · simp [exec, execDecode, hsel]
  · simp [exec, execDigitof, hsel]
  · simp [exec, execSymbolof, hsel]

/-- Settles O17: the branches of `selectAlphabet`, and the error they leave no choice of (`exec_of_customUnloaded`). -/
theorem selectedAlphabetIsRomOrLoadedCustomOrAnError : Obligations.SelectedAlphabetIsRomOrLoadedCustomOrAnError := by
  unfold Obligations.SelectedAlphabetIsRomOrLoadedCustomOrAnError
  refine fun s => ⟨rfl, fun hv => ?_, fun hv i hi => ?_⟩
  · simp [selectAlphabet, hv, customAlphabet]
  · rw [exec_of_customUnloaded hv hi, raise_alphabetNotLoaded_eq]

/-- Settles O15: `DIGITOF` under a selected alphabet looks the byte up (`invOf`) and completes. -/
theorem digitofReadsTheInverseTable : Obligations.DigitofReadsTheInverseTable := by
  unfold Obligations.DigitofReadsTheInverseTable
  intro a b s A hA
  simp only [exec, execDigitof, hA]
  rfl

/-- Settles O14: the entry `DIGITOF` reads (O15) is a symbol's digit, and `SENTINEL` for any other byte. -/
theorem digitofGivesTheDigitOrSentinel : Obligations.DigitofGivesTheDigitOrSentinel := by
  unfold Obligations.DigitofGivesTheDigitOrSentinel
  intro a b s A hA h
  refine ⟨invOf A b, digitofReadsTheInverseTable a b s A hA, ?_, h.invOf_eq_sentinel⟩
  rintro d rfl
  exact h.toNat_invOf_symbolOf d

/-! ## `LDALPHA` (R120) -/

/-! What a command leaves that raised an error (R200). -/

theorem completedWithError_raise (e : CmdError) (b : Byte) (p : Word) (s : State) :
    CompletedWithError (codeOf e) b p (raise e b p s) := by
  constructor <;> simp

theorem sameButReport_raise (e : CmdError) (b : Byte) (p : Word) (s : State) : SameButReport s (raise e b p s) := by
  constructor <;> simp

/-! The three ways `LDALPHA` completes. -/

theorem exec_ldalpha_wrongCount {s : State} (h : s.alen ≠ 58#8) :
    exec .ldalpha s = .next (raise .alphabetError 0 (s.alen.setWidth 32) s) := by
  simp [exec, execLdalpha, h]

theorem exec_ldalpha_repeated {s : State} {j : Nat} {b : Byte} (h : s.alen = 58#8)
    (hr : firstRepeat [] (staged s) = some (j, b)) :
    exec .ldalpha s = .next (raise .alphabetError b (posWord j) s) := by
  simp [exec, execLdalpha, h, hr]

theorem exec_ldalpha_distinct {s : State} (h : s.alen = 58#8) (hd : (staged s).Nodup) :
    exec .ldalpha s = .next (finish (loadCustom (stagedTable s) s)) := by
  have hr : firstRepeat [] (staged s) = none := (firstRepeat_eq_none_iff [] (staged s)).2 ⟨hd, by simp⟩
  simp [exec, execLdalpha, h, hr]

/-- Settles O19: the count is tested first (`exec_ldalpha_wrongCount`). -/
theorem ldalphaRejectsAWrongCount : Obligations.LdalphaRejectsAWrongCount := by
  unfold Obligations.LdalphaRejectsAWrongCount
  exact fun s h => ⟨_, exec_ldalpha_wrongCount h, completedWithError_raise .alphabetError 0 _ s,
    raise_alphabetError_avalid .., sameButReport_raise ..⟩

/-- Settles O18: the tables loaded are those of the alphabet the staged bytes denote, which is well formed because they
are distinct. -/
theorem ldalphaLoadsFiftyEightDistinctSymbols : Obligations.LdalphaLoadsFiftyEightDistinctSymbols := by
  unfold Obligations.LdalphaLoadsFiftyEightDistinctSymbols
  intro s hn hdist
  have hd : (staged s).Nodup := staged_nodup hdist
  have hwf : (alphabetOf (stagedTable s)).wf := alphabetOf_wf hd
  have hsym (d : Digit) : symbolOf (alphabetOf (stagedTable s)) d = readByte s (0x40 + d.val) := stagedTable_getElem s d
  refine ⟨_, exec_ldalpha_distinct hn hd, ⟨rfl, rfl, rfl⟩, ⟨rfl, rfl, rfl⟩,
    ⟨rfl, rfl, rfl, rfl, rfl, rfl, rfl, rfl, rfl, rfl⟩, rfl, rfl, hsym, ?_, ?_⟩
  · rintro b d rfl
    rw [← hsym]
    exact hwf.toNat_invOf_symbolOf d
  · exact fun b hb => hwf.invOf_eq_sentinel fun d => hsym d ▸ hb d

/-- Entries that repeat nothing are passed over by the duplicate test. -/
theorem firstRepeat_append {seen pre : List Byte} (rest : List Byte) (hd : pre.Nodup) (hs : ∀ b ∈ pre, b ∉ seen) :
    firstRepeat seen (pre ++ rest) = firstRepeat (pre.reverse ++ seen) rest := by
  induction pre generalizing seen with
  | nil => rfl
  | cons b pre ih =>
    obtain ⟨hb, hd⟩ := List.nodup_cons.1 hd
    obtain ⟨hbs, hs⟩ := List.forall_mem_cons.1 hs
    have hs' : ∀ c ∈ pre, c ∉ b :: seen := fun c hc =>
      List.not_mem_cons_of_ne_of_not_mem (fun hcb => hb (hcb ▸ hc)) (hs c hc)
    simp only [List.cons_append, firstRepeat, if_neg hbs, ih hd hs', List.reverse_cons, List.append_assoc,
      List.nil_append]

/-- The entry at `j` is the one reported when it repeats an earlier one and those before it are distinct. -/
theorem firstRepeat_eq_some_of_repeat {s : List Byte} {i j : Nat} {b : Byte} (hij : i < j) (hi : s[i]? = some b)
    (hj : s[j]? = some b) (hd : (s.take j).Nodup) : firstRepeat [] s = some (j, b) := by
  obtain ⟨hjlt, hjb⟩ := List.getElem?_eq_some_iff.1 hj
  have hmem : b ∈ s.take j := List.mem_of_getElem? ((List.getElem?_take_of_lt hij).trans hi)
  have hs : s = s.take j ++ b :: s.drop (j + 1) := by
    rw [← hjb, List.getElem_cons_drop, List.take_append_drop]
  rw [hs, firstRepeat_append _ hd (by simp)]
  simp [firstRepeat, hmem, hjlt.le]

theorem staged_take_nodup {s : State} {j : Nat}
    (h : ∀ k l, k < l → l < j → readByte s (0x40 + k) ≠ readByte s (0x40 + l)) : ((staged s).take j).Nodup := by
  rw [List.nodup_iff_pairwise_ne, List.pairwise_iff_getElem]
  intro k l hk hl hkl
  have hlj : l < j := (List.length_take ▸ hl).trans_le (Nat.min_le_left _ _)
  simpa [staged, astgBase] using h k l hkl hlj

/-- Settles O20: the duplicate test passes over the distinct bytes before `j` and reports the byte there
(`firstRepeat_eq_some_of_repeat`). -/
theorem ldalphaRejectsTheFirstDuplicate : Obligations.LdalphaRejectsTheFirstDuplicate := by
  unfold Obligations.LdalphaRejectsTheFirstDuplicate
  intro s i j hn hij hj heq hdist
  have hi : (staged s)[i]? = some (readByte s (0x40 + j)) := heq ▸ staged_getElem? s i (hij.trans hj)
  have hr := firstRepeat_eq_some_of_repeat hij hi (staged_getElem? s j hj) (staged_take_nodup hdist)
  exact ⟨_, exec_ldalpha_repeated hn hr, completedWithError_raise .alphabetError _ (posWord j) s,
    raise_alphabetError_avalid .., sameButReport_raise ..⟩

/-! ## The scan with a working table (R121) -/

/-- The inverse-table entry of `b` when the symbols so far are `pre`: its index among them, or `SENTINEL`. -/
def entryAmong (pre : List Byte) (b : Byte) : Byte :=
  (pre.findIdx? (fun x => x == b)).elim SENTINEL (BitVec.ofNat 8)

/-- The working table `W` after the symbols `pre`. -/
def workingTable (pre : List Byte) : Vector Byte 256 := Vector.ofFn fun n => entryAmong pre (BitVec.ofNat 8 n)

theorem invEntry_eq_entryAmong (sym : Vector Byte 58) (b : Byte) : invEntry sym b = entryAmong sym.toList b := by
  unfold invEntry entryAmong
  cases sym.toList.findIdx? (fun x => x == b) <;> rfl

theorem workingTable_getElem (pre : List Byte) {n : Nat} (hn : n < 256) :
    (workingTable pre)[n] = entryAmong pre (BitVec.ofNat 8 n) := Vector.getElem_ofFn hn

theorem workingTable_toNat (pre : List Byte) (b : Byte) : (workingTable pre)[b.toNat]'b.isLt = entryAmong pre b := by
  rw [workingTable_getElem, BitVec.ofNat_toNat, BitVec.setWidth_eq]

/-- Before the first symbol the working table is empty. -/
theorem workingTable_nil : workingTable [] = emptyTable :=
  Vector.ext fun n hn => by simp [workingTable_getElem, entryAmong, emptyTable]

/-- After the last symbol the working table is the inverse table of R112. -/
theorem workingTable_toList (sym : Vector Byte 58) : workingTable sym.toList = invTable sym :=
  Vector.ext fun n hn => by simp [workingTable_getElem, invTable, invEntry_eq_entryAmong]

/-- An entry is `SENTINEL` exactly for the bytes not yet seen, as every index is below 255. -/
theorem entryAmong_eq_sentinel_iff {pre : List Byte} (hlen : pre.length ≤ 255) (b : Byte) :
    entryAmong pre b = SENTINEL ↔ b ∉ pre := by
  cases hf : pre.findIdx? (fun x => x == b) with
  | none =>
    have hb : b ∉ pre := fun hb => by simpa using List.findIdx?_eq_none_iff.1 hf b hb
    simp [entryAmong, hf, hb]
  | some d =>
    obtain ⟨hd, hb, -⟩ := List.findIdx?_eq_some_iff_getElem.1 hf
    have hmem : b ∈ pre := beq_iff_eq.1 hb ▸ List.getElem_mem hd
    have hne : BitVec.ofNat 8 d ≠ SENTINEL := fun h => by
      have := congrArg BitVec.toNat h
      rw [BitVec.toNat_ofNat, Nat.mod_eq_of_lt (by omega)] at this
      exact absurd this (by simp [SENTINEL]; omega)
    simp [entryAmong, hf, hmem, hne]

/-- A new symbol gets the next index, and every other byte keeps its entry. -/
theorem entryAmong_append {pre : List Byte} {b : Byte} (hb : b ∉ pre) (x : Byte) :
    entryAmong (pre ++ [b]) x = if b = x then BitVec.ofNat 8 pre.length else entryAmong pre x := by
  by_cases hx : b = x
  · subst hx
    have hf : pre.findIdx? (fun y => y == b) = none :=
      List.findIdx?_eq_none_iff.2 fun y hy => beq_eq_false_iff_ne.2 fun h => hb (h ▸ hy)
    simp [entryAmong, List.findIdx?_append, hf]
  · simp [entryAmong, List.findIdx?_append, hx]

/-- The write the scan makes for a new symbol. -/
theorem workingTable_set {pre : List Byte} {b : Byte} (hb : b ∉ pre) :
    (workingTable pre).set b.toNat (BitVec.ofNat 8 pre.length) b.isLt = workingTable (pre ++ [b]) := by
  refine Vector.ext fun n hn => ?_
  have hiff : b = BitVec.ofNat 8 n ↔ b.toNat = n := by
    rw [← BitVec.toNat_inj, BitVec.toNat_ofNat, Nat.mod_eq_of_lt hn]
  simp only [Vector.getElem_set, workingTable_getElem, entryAmong_append hb, hiff]

/-- The scan continued after the distinct symbols `pre` is the duplicate test continued after them. -/
theorem scanSymbols_workingTable (pre rest : List Byte) (hlen : pre.length + rest.length ≤ 255) :
    scanSymbols pre.length (workingTable pre) rest =
      (firstRepeat pre.reverse rest).elim (.table (workingTable (pre ++ rest))) (fun p => .repeated p.1 p.2) := by
  induction rest generalizing pre with
  | nil => simp [scanSymbols, firstRepeat]
  | cons b rest ih =>
    rw [List.length_cons] at hlen
    simp only [scanSymbols, firstRepeat, workingTable_toNat, entryAmong_eq_sentinel_iff (by omega : pre.length ≤ 255),
      List.mem_reverse]
    by_cases hb : b ∈ pre
    · simp [hb]
    · have ih' := ih (pre ++ [b]) (by simp; omega)
      simpa [hb, workingTable_set hb] using ih'

/-- Settles O58: the scan from the empty working table (`scanSymbols_workingTable` with no symbol before). -/
theorem scanComputesTheDuplicateTest : Obligations.ScanComputesTheDuplicateTest := by
  unfold Obligations.ScanComputesTheDuplicateTest
  intro sym
  have hscan := scanSymbols_workingTable [] sym.toList (by simp)
  rw [workingTable_nil, List.nil_append, workingTable_toList] at hscan
  refine hscan.trans ?_
  rw [List.reverse_nil]
  cases firstRepeat [] sym.toList <;> rfl

/-! ## What changes the alphabets (R117) -/

theorem SameCustom.of_takeEvent {s t : State} (h : SameCustom (takeEvent s) t) : SameCustom s t :=
  ⟨h.avalid, h.csym, h.cinv⟩

/-- Settles O37, by what the step did: neither a host access (`AccessEffect.frame`) nor an idle engine touches the
custom slot, and a completion does so for two commands alone (`complete_frame`). -/
theorem alphabetsChangeOnlyByLdalphaSrstOrReset : Obligations.AlphabetsChangeOnlyByLdalphaSrstOrReset := by
  unfold Obligations.AlphabetsChangeOnlyByLdalphaSrstOrReset
  intro s t hst
  rcases step_cases hst with ⟨a, -, -, ha⟩ | ⟨-, -, rfl⟩ | ⟨hn, hb, hc⟩ | ⟨hn, rfl⟩
  · obtain ⟨hcfg, -, hsame, -⟩ := ha.frame
    exact ⟨hcfg, fun hne => absurd hsame.of_takeEvent hne⟩
  · exact ⟨rfl, fun hne => absurd ⟨rfl, rfl, rfl⟩ hne⟩
  · obtain ⟨hcfg, -, -, hslot, -⟩ := complete_frame hc
    exact ⟨hcfg, fun hne => .inr ⟨hb, hn, hslot.resolve_left fun hsame => hne hsame.of_takeEvent⟩⟩
  · exact ⟨rfl, fun _ => .inl hn⟩

end Sys2Proof.Machine
end

/-! # `ENCODE`, base-256 to base-58 (spec/41_encode.md R140 to R150) -/

section
namespace Sys2Proof.Machine

/-! ## The text: its leading zeros and its length (R141 to R147) -/

/-- The text of R141 with the value of the whole payload, to which leading zero bytes add nothing. -/
theorem encText_eq (A : Alphabet) (b : List Byte) :
    encText A b = List.replicate (lead b 0#8) (symbolOf A 0) ++ (digits58 (val256 b)).map (symbolOf A) := by
  rw [encText, val256_drop_lead]

theorem encText_nil (A : Alphabet) : encText A [] = [] := rfl

theorem length_encText (A : Alphabet) (b : List Byte) :
    (encText A b).length = lead b 0#8 + (digits58 (val256 b)).length := by
  simp [encText_eq]

theorem encText_replicate_append (A : Alphabet) (b : List Byte) (k : Nat) :
    encText A (List.replicate k 0#8 ++ b) = List.replicate k (symbolOf A 0) ++ encText A b := by
  simp only [encText_eq, lead_replicate_append, val256_replicate_zero, List.replicate_add, List.append_assoc]

/-- Settles O50: the zeros in front go to the run of zero-digit symbols (`encText_replicate_append`), which the digits
do not prolong (`lead_digits58_symbols`). -/
theorem encodePreservesLeadingZeros : Obligations.EncodePreservesLeadingZeros := by
  unfold Obligations.EncodePreservesLeadingZeros
  refine fun A b k h => ⟨encText_replicate_append A b k, ?_⟩
  rw [encText_eq, lead_replicate_append, lead_digits58_symbols h, Nat.add_zero]

/-- The bytes after the leading zeros are the minimal representation of the payload's value. -/
theorem minbytes_val256_eq_drop (b : List Byte) : minbytes (val256 b) = b.drop (lead b 0#8) := by
  rw [← val256_drop_lead, minbytes_val256 _ (head_drop_lead b 0#8)]

/-- `V < 256^j` exactly when at most `j` bytes follow the leading zeros (R145). -/
theorem val256_lt_pow_iff (b : List Byte) (j : Nat) : val256 b < 256 ^ j ↔ b.length - lead b 0#8 ≤ j := by
  rw [← length_minbytes_le_iff, minbytes_val256_eq_drop, List.length_drop]

/-- Settles O52: a bound on the digits is a power of 58 above `V` (`length_digits58_le_iff`), and a bound on the bytes a
power of 256 above it (`val256_lt_pow_iff`). -/
theorem encodedLengthIsBounded : Obligations.EncodedLengthIsBounded := by
  unfold Obligations.EncodedLengthIsBounded
  rintro A b z m k v rfl rfl rfl rfl
  rw [val256_drop_lead]
  have hbytes := val256_lt_pow_iff b
  have hdigits := length_digits58_le_iff (val256 b)
  have hk : val256 b < 58 ^ (digits58 (val256 b)).length := (hdigits _).1 le_rfl
  have hm : val256 b < 256 ^ (b.length - lead b 0#8) := (hbytes _).2 le_rfl
  refine ⟨length_encText A b, hk, fun l => (hdigits l).2, fun hm0 => ?_, fun hpos => ⟨?_, hm⟩, ?_,
    fun l hl => (hdigits l).2 (hm.trans_le hl)⟩
  · exact Nat.le_zero.1 ((hdigits 0).2 ((hbytes 0).2 hm0.le))
  · exact not_lt.1 fun hlt => absurd ((hbytes _).1 hlt) (by omega)
  · exact (hbytes _).1 (hk.trans_le (Nat.pow_le_pow_left (by omega) _))

/-- `|enc(b)| <= t` as one inequality of numbers, the leading zeros as powers of 58. -/
theorem length_encText_le_iff (A : Alphabet) (b : List Byte) (t : Nat) :
    (encText A b).length ≤ t ↔ (val256 b + 1) * 58 ^ lead b 0#8 ≤ 58 ^ t := by
  rw [length_encText]
  constructor
  · intro hlen
    have hv : val256 b + 1 ≤ 58 ^ (t - lead b 0#8) := (length_digits58_le_iff _ _).1 (by omega)
    calc (val256 b + 1) * 58 ^ lead b 0#8
        ≤ 58 ^ (t - lead b 0#8) * 58 ^ lead b 0#8 := Nat.mul_le_mul_right _ hv
      _ = 58 ^ t := by rw [← pow_add, Nat.sub_add_cancel (by omega)]
  · intro hle
    have hz : lead b 0#8 ≤ t :=
      (Nat.pow_le_pow_iff_right (by omega)).1 ((Nat.le_mul_of_pos_left _ (by omega)).trans hle)
    have hv : val256 b + 1 ≤ 58 ^ (t - lead b 0#8) := by
      rw [← Nat.sub_add_cancel hz, pow_add] at hle
      simpa using Nat.le_of_mul_le_mul_right hle (by positivity)
    have := (length_digits58_le_iff _ _).2 hv
    omega

/-- R147, with each side of R7 as a count of texts: the factor 58 of a leading zero is at most its 256, and the other
bytes have a value below their power of 256. -/
theorem length_encText_le {nMax tMax : Nat} (A : Alphabet) {b : List Byte} (hcap : 256 ^ nMax ≤ 58 ^ tMax)
    (hb : b.length ≤ nMax) : (encText A b).length ≤ tMax := by
  rw [length_encText_le_iff]
  calc (val256 b + 1) * 58 ^ lead b 0#8
      ≤ 256 ^ (b.length - lead b 0#8) * 256 ^ lead b 0#8 :=
        Nat.mul_le_mul ((val256_lt_pow_iff b _).2 le_rfl) (Nat.pow_le_pow_left (by omega) _)
    _ = 256 ^ b.length := by rw [← pow_add, Nat.sub_add_cancel (lead_le_length b 0#8)]
    _ ≤ 256 ^ nMax := Nat.pow_le_pow_right (by omega) hb
    _ ≤ 58 ^ tMax := hcap

theorem val256_replicate_ff (n : Nat) : val256 (List.replicate n 0xFF#8) + 1 = 256 ^ n := by
  induction n with
  | zero => rfl
  | succ n ih =>
    rw [List.replicate_succ, val256, List.length_replicate, Nat.add_assoc, ih, pow_succ]
    simp only [BitVec.toNat_ofNat]
    omega

/-- The greatest payload of 64 bytes fills a `TBUF` of 88. -/
theorem length_encText_replicate_ff (A : Alphabet) : (encText A (List.replicate 64 0xFF#8)).length = 88 := by
  have hlead : lead (List.replicate 64 0xFF#8) 0#8 = 0 := lead_cons_ne (by decide) _
  have hiff (t : Nat) : (encText A (List.replicate 64 0xFF#8)).length ≤ t ↔ 256 ^ 64 ≤ 58 ^ t := by
    rw [length_encText_le_iff, val256_replicate_ff, hlead, pow_zero, mul_one]
  have h88 := (hiff 88).2 (by norm_num)
  have h87 := (hiff 87).not.2 (by norm_num)
  omega

/-! ## The round trip of R150 -/

/-- Every byte of an encoding is a symbol (R146). -/
theorem exists_symbol_of_mem_encText {A : Alphabet} {b : List Byte} {c : Byte} (hc : c ∈ encText A b) :
    ∃ d : Digit, symbolOf A d = c := by
  rw [encText_eq, List.mem_append, List.mem_replicate, List.mem_map] at hc
  rcases hc with ⟨-, rfl⟩ | ⟨d, -, hd⟩
  · exact ⟨0, rfl⟩
  · exact ⟨d, hd⟩

theorem firstInvalid_encText {A : Alphabet} (h : A.wf) (b : List Byte) : firstInvalid A (encText A b) = none := by
  refine (firstInvalid_eq_none_iff A _).2 fun c hc => ?_
  obtain ⟨d, rfl⟩ := exists_symbol_of_mem_encText hc
  rw [h.invOf_symbolOf]
  exact digit_ne_sentinel d

/-- The digits of a text are zeros and the numeral of the payload's value, so their value is the payload's. -/
theorem val58_encText {A : Alphabet} (h : A.wf) (b : List Byte) :
    val58 ((encText A b).map (fun c => (invOf A c).toNat)) = val256 b := by
  rw [encText_eq, List.map_append, List.map_replicate, invOf_symbolOf_zero h, map_invOf_symbols h,
    val58_replicate_zero, val58_digits58]

theorem decText_encText {A : Alphabet} (h : A.wf) (b : List Byte) : decText A (encText A b) = b := by
  rw [decText, val58_encText h, minbytes_val256_eq_drop, (encodePreservesLeadingZeros A b 0 h).2,
    replicate_lead_append]

/-- Settles O49: zeros encode to zeros (`encText_replicate_append` with nothing after them), and decode back as any
encoding does. -/
theorem emptyAndAllZeroInputsConvertOneForOne : Obligations.EmptyAndAllZeroInputsConvertOneForOne := by
  unfold Obligations.EmptyAndAllZeroInputsConvertOneForOne
  intro A k h
  have henc : encText A (List.replicate k 0#8) = List.replicate k (symbolOf A 0) := by
    have happend := encText_replicate_append A [] k
    rwa [encText_nil, List.append_nil, List.append_nil] at happend
  exact ⟨encText_nil A, rfl, rfl, henc, henc ▸ decText_encText h _⟩

/-! ## The command (R140) -/

theorem exec_encode_badLength {a : AlphaSel} {s : State} {A : Alphabet} (hA : selectAlphabet a s = some A)
    (hb : s.cfg.nMax.toNat < s.blen.toNat) :
    exec (.encode a) s = .next (raise .badLength 0 (lengthWord s.blen) s) := by
  simp [exec, execEncode, hA, hb]

theorem exec_encode_overflow {a : AlphaSel} {s : State} {A : Alphabet} (hA : selectAlphabet a s = some A)
    (hb : s.blen.toNat ≤ s.cfg.nMax.toNat) (hl : s.cfg.tMax.toNat < (encText A (payload s)).length) :
    exec (.encode a) s = .next (raise .overflow 0 0 s) := by
  simp [exec, execEncode, hA, hb.not_gt, hl]

theorem exec_encode_success {a : AlphaSel} {s : State} {A : Alphabet} (hA : selectAlphabet a s = some A)
    (hb : s.blen.toNat ≤ s.cfg.nMax.toNat) (hl : (encText A (payload s)).length ≤ s.cfg.tMax.toNat) :
    exec (.encode a) s = .next (finish (commitText (encText A (payload s)) s)) := by
  simp [exec, execEncode, hA, hb.not_gt, hl.not_gt]

theorem completedWell_finish (s : State) : CompletedWell (finish s) := ⟨rfl, rfl, rfl⟩

/-- Settles O22: each error is raised by its own test, and `raise` writes the report and the flags alone. -/
theorem encodeFailsWithBadLengthOrOverflow : Obligations.EncodeFailsWithBadLengthOrOverflow := by
  unfold Obligations.EncodeFailsWithBadLengthOrOverflow
  exact fun a s A hA => ⟨exec_encode_badLength hA, exec_encode_overflow hA⟩

theorem toNat_tlen_commitText {e : List Byte} {s : State} (h : e.length ≤ s.cfg.tMax.toNat) :
    (finish (commitText e s)).tlen.toNat = e.length := by
  rw [finish_tlen, commitText_tlen, BitVec.toNat_ofNat, Nat.mod_eq_of_lt (h.trans_lt s.cfg.tMax.isLt)]

theorem readByte_commitText (e : List Byte) (s : State) (off : Nat) :
    readByte (finish (commitText e s)) off = readByte (writeBytes tbufBase e s) off :=
  readByte_congr (by simp) (by simp) off

/-- Settles O21: the run of stores in `commitText` writes the text and no other byte. -/
theorem encodeWritesTheTextAndNothingElse : Obligations.EncodeWritesTheTextAndNothingElse := by
  unfold Obligations.EncodeWritesTheTextAndNothingElse
  rintro a s A e hA rfl hb hl
  refine ⟨_, exec_encode_success hA hb hl, completedWell_finish _, ?_, ?_, toNat_tlen_commitText hl,
    fun j hj => ?_, fun off hoff => ?_, ?_⟩
  · constructor <;> simp
  · constructor <;> simp
  · exact (readByte_commitText _ s _).trans (readByte_writeBytes_inside s tbufBase j _ hj)
  · exact (readByte_commitText _ s off).trans (readByte_writeBytes_outside s tbufBase off _ hoff)
  · simp

@[simp] theorem length_payload (s : State) : (payload s).length = s.blen.toNat := length_readBytes ..

/-- Under R7 the text of a payload in range fits `TBUF`. -/
theorem length_encText_payload_le {s : State} (A : Alphabet) (hroomy : s.cfg.roomy)
    (hb : s.blen.toNat ≤ s.cfg.nMax.toNat) : (encText A (payload s)).length ≤ s.cfg.tMax.toNat :=
  length_encText_le A hroomy (by simpa using hb)

/-- Settles O54, by the bound of R147 (`length_encText_le`): the payload `ENCODE` reads has `BLEN` bytes. -/
theorem encodingFitsUnderTheCapacityConstraint : Obligations.EncodingFitsUnderTheCapacityConstraint := by
  unfold Obligations.EncodingFitsUnderTheCapacityConstraint
  refine ⟨fun _ _ A _ hcap hb => length_encText_le A hcap hb, fun a s A hroomy hA hb => ?_,
    length_encText_replicate_ff⟩
  exact ⟨_, exec_encode_success hA hb (length_encText_payload_le A hroomy hb), completedWell_finish _⟩

/-! ## `ENCODE` then `DECODE` (R150) -/

theorem exec_decode_success {a : AlphaSel} {s : State} {A : Alphabet} (hA : selectAlphabet a s = some A)
    (ht : s.tlen.toNat ≤ s.cfg.tMax.toNat) (hv : firstInvalid A (text s) = none)
    (hl : (decText A (text s)).length ≤ s.cfg.nMax.toNat) :
    exec (.decode a) s = .next (finish (commitPayload (decText A (text s)) s)) := by
  simp [exec, execDecode, hA, ht.not_gt, hv, hl.not_gt]

/-- The alphabet a command selects does not depend on the buffers or the flags. -/
theorem selectAlphabet_commitText (a : AlphaSel) (e : List Byte) (s : State) :
    selectAlphabet a (finish (commitText e s)) = selectAlphabet a s := by
  cases a <;> simp [selectAlphabet, romAlphabet, customAlphabet]

/-- `DECODE` of a text just committed writes the payload the text denotes. -/
theorem exec_decode_commitText {a : AlphaSel} {s : State} {A : Alphabet} {e : List Byte}
    (hA : selectAlphabet a s = some A) (he : e.length ≤ s.cfg.tMax.toNat) (hv : firstInvalid A e = none)
    (hl : (decText A e).length ≤ s.cfg.nMax.toNat) :
    exec (.decode a) (finish (commitText e s)) =
      .next (finish (commitPayload (decText A e) (finish (commitText e s)))) := by
  have htext : text (finish (commitText e s)) = e := text_commitText e s (he.trans_lt s.cfg.tMax.isLt)
  have hdec := exec_decode_success (A := A) ((selectAlphabet_commitText a e s).trans hA)
    (by rwa [toNat_tlen_commitText he, finish_cfg, commitText_cfg]) (by rwa [htext]) (by rw [htext]; simpa using hl)
  rwa [htext] at hdec

theorem readByte_commitPayload (r : List Byte) (s : State) (off : Nat) :
    readByte (finish (commitPayload r s)) off = readByte (writeBytes bbufBase r s) off :=
  readByte_congr (by simp) (by simp) off

/-- A payload never reaches `TBUF`: `BBUF` is 65536 bytes below it (R61). -/
theorem text_commitPayload (r : List Byte) (s : State) (h : r.length ≤ 65536) :
    text (finish (commitPayload r s)) = text s := by
  have htlen : (finish (commitPayload r s)).tlen = s.tlen := by simp
  rw [text, text, htlen]
  refine readBytes_congr tbufBase s.tlen.toNat fun i _ => ?_
  rw [readByte_commitPayload, readByte_writeBytes_outside]
  simp only [bbufBase, tbufBase]
  omega

/-- The byte of a payload at its host offset. -/
theorem readByte_commitPayload_payload (s t : State) {off : Nat} (hlo : bbufBase ≤ off)
    (hhi : off < bbufBase + s.blen.toNat) :
    readByte (finish (commitPayload (payload s) t)) off = readByte s off := by
  obtain ⟨i, rfl⟩ := Nat.exists_eq_add_of_le hlo
  rw [readByte_commitPayload, readByte_writeBytes_inside t bbufBase i (payload s) (by simp; omega)]
  exact getElem_readBytes ..

/-- Settles O55: `decText_encText` is the round trip; the text fits `TBUF` by R7, `DECODE` reads it back, and the
payload it commits is the one `ENCODE` read. -/
theorem encodeThenDecodeRestoresThePayload : Obligations.EncodeThenDecodeRestoresThePayload := by
  unfold Obligations.EncodeThenDecodeRestoresThePayload
  refine ⟨fun A b h => ⟨firstInvalid_encText h b, decText_encText h b⟩, fun a s A hinv hroomy hA hb => ?_⟩
  have hwf : A.wf := hinv.selected_wf hA
  have hfit := length_encText_payload_le A hroomy hb
  have hround := decText_encText hwf (payload s)
  have hdec := exec_decode_commitText hA hfit (firstInvalid_encText hwf _) (by simpa [hround] using hb)
  rw [hround] at hdec
  refine ⟨_, _, exec_encode_success hA hb hfit, hdec, completedWell_finish _, completedWell_finish _, by simp,
    fun off => readByte_commitPayload_payload s _, ?_⟩
  rw [text_commitPayload _ _ (by simpa using s.blen.isLt.le), text_commitText _ _ (hfit.trans_lt s.cfg.tMax.isLt)]

/-! ## The reference datapath (R148) -/

/-- One pass of R148 leaves the quotient and answers the remainder of a division by 58. -/
theorem dividePass_eq_div_mod (acc : List Byte) :
    val256 (skipZeros (dividePass 0 acc).1) = val256 acc / 58 ∧ (dividePass 0 acc).2 = val256 acc % 58 := by
  obtain ⟨-, hlt, hval⟩ := dividePass_spec acc 0 (by omega)
  rw [val256_skipZeros]
  omega

/-- The digits as R148 stacks them, or none where they do not fit the room. -/
def digitsWithin (room v : Nat) : Option (List Nat) :=
  if room < (Nat.digits 58 v).length then none else some (Nat.digits 58 v)

theorem digitsWithin_zero_right (room : Nat) : digitsWithin room 0 = some [] := by simp [digitsWithin]

theorem digitsWithin_zero_left {v : Nat} (hv : v ≠ 0) : digitsWithin 0 v = none := by
  simp [digitsWithin, List.length_pos_iff, Nat.digits_ne_nil_iff_ne_zero, hv]

theorem digitsWithin_succ (room : Nat) {v : Nat} (hv : v ≠ 0) :
    digitsWithin (room + 1) v = (digitsWithin room (v / 58)).map (fun ds => v % 58 :: ds) := by
  simp only [digitsWithin, Nat.digits_def' (by omega : 1 < 58) (Nat.pos_of_ne_zero hv), List.length_cons,
    Nat.add_lt_add_iff_right]
  split <;> rfl

/-- The passes of R148 stack the digits of what `ACC` holds, by induction on the room left: each pass takes one digit
and leaves a quotient without leading zero bytes. -/
theorem divideLoop_eq_digitsWithin (room : Nat) (acc : List Byte) (h : ∀ hne : acc ≠ [], acc.head hne ≠ 0#8) :
    divideLoop room acc = digitsWithin room (val256 acc) := by
  induction room, acc using divideLoop.induct with
  | case1 room => rw [divideLoop, val256, digitsWithin_zero_right]
  | case2 b rest =>
    have hv : val256 (b :: rest) ≠ 0 := val256_cons_ne_zero (h (List.cons_ne_nil b rest))
    rw [divideLoop, digitsWithin_zero_left hv]
  | case3 room b rest ih =>
    have hv : val256 (b :: rest) ≠ 0 := val256_cons_ne_zero (h (List.cons_ne_nil b rest))
    obtain ⟨hquot, hrem⟩ := dividePass_eq_div_mod (b :: rest)
    rw [divideLoop, ih (head_skipZeros_ne_zero _), hquot, hrem, digitsWithin_succ room hv]

/-- Settles O56: the loop stacks the digits of `V` where they fit (`divideLoop_eq_digitsWithin`), in the room the
leading zeros leave. -/
theorem encodeDatapathComputesTheEncoding : Obligations.EncodeDatapathComputesTheEncoding := by
  unfold Obligations.EncodeDatapathComputesTheEncoding
  intro A tMax b
  have hloop := divideLoop_eq_digitsWithin (tMax - lead b 0#8) _ (head_drop_lead b 0#8)
  rw [val256_drop_lead, digitsWithin, ← length_digits58] at hloop
  simp only [encodeDatapath, hloop, length_encText]
  by_cases hz : tMax < lead b 0#8
  · rw [if_pos hz, if_pos (by omega)]
  · rw [if_neg hz]
    by_cases hk : tMax - lead b 0#8 < (digits58 (val256 b)).length
    · rw [if_pos hk, if_pos (by omega), Option.map_none]
    · rw [if_neg hk, if_neg (by omega), Option.map_some, encText_eq, digits58_eq, List.map_map]
      rfl

end Sys2Proof.Machine
end

/-! # `DECODE`, base-58 to base-256 (spec/42_decode.md R160 to R169) -/

section
namespace Sys2Proof.Machine

/-! ## The payload: its leading zeros and its length (R161 to R166) -/

/-- The number `V` of R161 that a text denotes, its leading zero-digit symbols included. -/
def textValue (A : Alphabet) (x : List Byte) : Nat := val58 (x.map (fun b => (invOf A b).toNat))

theorem decText_eq (A : Alphabet) (x : List Byte) :
    decText A x = List.replicate (lead x (symbolOf A 0)) 0#8 ++ minbytes (textValue A x) := rfl

theorem length_decText (A : Alphabet) (x : List Byte) :
    (decText A x).length = lead x (symbolOf A 0) + (minbytes (textValue A x)).length := by
  simp [decText_eq]

theorem textValue_symbols {A : Alphabet} (h : A.wf) (ds : List Digit) :
    textValue A (ds.map (symbolOf A)) = val58 (ds.map Fin.val) := by
  rw [textValue, map_invOf_symbols h]

theorem textValue_replicate_append {A : Alphabet} (h : A.wf) (k : Nat) (x : List Byte) :
    textValue A (List.replicate k (symbolOf A 0) ++ x) = textValue A x := by
  rw [textValue, List.map_append, List.map_replicate, invOf_symbolOf_zero h, val58_replicate_zero, textValue]

theorem textValue_drop_lead {A : Alphabet} (h : A.wf) (x : List Byte) :
    textValue A (x.drop (lead x (symbolOf A 0))) = textValue A x := by
  conv_rhs => rw [← replicate_lead_append x (symbolOf A 0), textValue_replicate_append h]

theorem decText_replicate_append {A : Alphabet} (h : A.wf) (k : Nat) (x : List Byte) :
    decText A (List.replicate k (symbolOf A 0) ++ x) = List.replicate k 0#8 ++ decText A x := by
  rw [decText_eq, decText_eq, lead_replicate_append, textValue_replicate_append h, List.replicate_add,
    List.append_assoc]

theorem lead_minbytes (v : Nat) : lead (minbytes v) 0#8 = 0 := lead_eq_zero_of_head_ne (head_minbytes_ne_zero v)

theorem lead_decText (A : Alphabet) (x : List Byte) : lead (decText A x) 0#8 = lead x (symbolOf A 0) := by
  rw [decText_eq, lead_replicate_append, lead_minbytes, Nat.add_zero]

/-- Settles O51: the symbols in front go to the run of zero bytes (`decText_replicate_append`), which the minimal
representation does not prolong (`lead_minbytes`). -/
theorem decodePreservesLeadingZeros : Obligations.DecodePreservesLeadingZeros := by
  unfold Obligations.DecodePreservesLeadingZeros
  exact fun A x k h _ => ⟨decText_replicate_append h k x, lead_decText A x⟩

/-- Base-58 text has no redundant forms (R167): the symbols after the leading zero-digit ones are the numeral of the
text's value. -/
theorem digits58_textValue {A : Alphabet} (h : A.wf) {x : List Byte} (hx : ∀ b ∈ x, ∃ d : Digit, symbolOf A d = b) :
    (digits58 (textValue A x)).map (symbolOf A) = x.drop (lead x (symbolOf A 0)) := by
  obtain ⟨ds, hds⟩ := exists_digits fun b hb => hx b (List.mem_of_mem_drop hb)
  have hhead : ∀ hne : ds ≠ [], ds.head hne ≠ 0 := by
    intro hne h0
    refine head_drop_lead x (symbolOf A 0) (by rwa [hds, ne_eq, List.map_eq_nil_iff]) ?_
    simp only [hds, List.head_map, h0]
  rw [← textValue_drop_lead h, hds, textValue_symbols h, digits58_val58 ds hhead]

/-- `V < 58^j` exactly when at most `j` symbols follow the leading zero-digit ones (R166). -/
theorem textValue_lt_pow_iff {A : Alphabet} (h : A.wf) {x : List Byte} (hx : ∀ b ∈ x, ∃ d : Digit, symbolOf A d = b)
    (j : Nat) : textValue A x < 58 ^ j ↔ x.length - lead x (symbolOf A 0) ≤ j := by
  rw [← length_digits58_le_iff, ← List.length_map (symbolOf A), digits58_textValue h hx, List.length_drop]

/-- Settles O53: a bound on the bytes is a power of 256 above `V` (`length_minbytes_le_iff`), and a bound on the symbols
a power of 58 above it (`textValue_lt_pow_iff`). -/
theorem decodedLengthIsBounded : Obligations.DecodedLengthIsBounded := by
  unfold Obligations.DecodedLengthIsBounded
  rintro A x z q k v h hx rfl rfl rfl rfl
  rw [← textValue, length_decText]
  have hsymbols := textValue_lt_pow_iff h hx
  have hbytes := length_minbytes_le_iff (textValue A x)
  have hq : textValue A x < 58 ^ (x.length - lead x (symbolOf A 0)) := (hsymbols _).2 le_rfl
  have hkq : (minbytes (textValue A x)).length ≤ x.length - lead x (symbolOf A 0) :=
    (hbytes _).2 (hq.trans_le (Nat.pow_le_pow_left (by omega) _))
  refine ⟨rfl, fun hq0 => ⟨?_, by omega⟩, fun hpos => ⟨?_, hq, ?_, hkq⟩, (hbytes _).1 le_rfl, fun l => (hbytes l).2,
    fun l hl => (hbytes l).2 (hq.trans_le hl), ?_⟩
  · simpa using (hsymbols 0).2 hq0.le
  · exact not_lt.1 fun hlt => absurd ((hsymbols _).1 hlt) (by omega)
  · exact not_lt.1 fun hk => absurd ((hsymbols 0).1 ((hbytes 0).1 (by omega))) (by omega)
  · have := lead_le_length x (symbolOf A 0)
    omega

/-! ## The converse round trip (R167) -/

theorem val256_decText (A : Alphabet) (x : List Byte) : val256 (decText A x) = textValue A x := by
  rw [decText_eq, val256_replicate_zero, val256_minbytes]

theorem encText_decText {A : Alphabet} (h : A.wf) {x : List Byte} (hx : ∀ b ∈ x, ∃ d : Digit, symbolOf A d = b) :
    encText A (decText A x) = x := by
  rw [encText_eq, lead_decText, val256_decText, digits58_textValue h hx, replicate_lead_append]

/-- Settles O48: the payload has the text's leading zeros and value (`lead_decText`, `val256_decText`), and the rest of
the text is the numeral of that value (`digits58_textValue`). -/
theorem encodeInvertsDecode : Obligations.EncodeInvertsDecode := by
  unfold Obligations.EncodeInvertsDecode
  exact fun A x h => encText_decText h

/-! ## The command (R160, R164) -/

theorem exec_decode_badLength {a : AlphaSel} {s : State} {A : Alphabet} (hA : selectAlphabet a s = some A)
    (ht : s.cfg.tMax.toNat < s.tlen.toNat) :
    exec (.decode a) s = .next (raise .badLength 0 (lengthWord s.tlen) s) := by
  simp [exec, execDecode, hA, ht]

theorem exec_decode_invalid {a : AlphaSel} {s : State} {A : Alphabet} {i : Nat} {b : Byte}
    (hA : selectAlphabet a s = some A) (ht : s.tlen.toNat ≤ s.cfg.tMax.toNat)
    (hv : firstInvalid A (text s) = some (i, b)) :
    exec (.decode a) s = .next (raise .invalidCharacter b (posWord i) s) := by
  simp [exec, execDecode, hA, ht.not_gt, hv]

theorem exec_decode_overflow {a : AlphaSel} {s : State} {A : Alphabet} (hA : selectAlphabet a s = some A)
    (ht : s.tlen.toNat ≤ s.cfg.tMax.toNat) (hv : firstInvalid A (text s) = none)
    (hl : s.cfg.nMax.toNat < (decText A (text s)).length) :
    exec (.decode a) s = .next (raise .overflow 0 0 s) := by
  simp [exec, execDecode, hA, ht.not_gt, hv, hl]

/-- Settles O25: each error is raised by its own test, and `raise` writes the report and the flags alone. -/
theorem decodeFailsWithBadLengthOrOverflow : Obligations.DecodeFailsWithBadLengthOrOverflow := by
  unfold Obligations.DecodeFailsWithBadLengthOrOverflow
  refine fun a s A hA => ⟨exec_decode_badLength hA, fun ht hvalid => ?_⟩
  exact exec_decode_overflow hA ht ((firstInvalid_eq_none_iff A _).2 hvalid)

theorem text_getElem? {s : State} {i : Nat} (h : i < s.tlen.toNat) :
    (text s)[i]? = some (readByte s (0x20000 + i)) := by
  rw [List.getElem?_eq_getElem (by simpa [text] using h)]
  exact congrArg some (getElem_readBytes s tbufBase s.tlen.toNat i _)

/-- The first invalid symbol of `TBUF` is the one the validation reports (R164). -/
theorem firstInvalid_text {s : State} {A : Alphabet} {i : Nat} (hi : i < s.tlen.toNat)
    (hbad : invOf A (readByte s (0x20000 + i)) = SENTINEL)
    (hgood : ∀ j < i, invOf A (readByte s (0x20000 + j)) ≠ SENTINEL) :
    firstInvalid A (text s) = some (i, readByte s (0x20000 + i)) := by
  refine (firstInvalid_eq_some_iff A _ i _).2 ⟨text_getElem? hi, hbad, fun j hj c hc => ?_⟩
  rw [text_getElem? (hj.trans hi), Option.some.injEq] at hc
  exact hc ▸ hgood j hj

/-- Settles O24: the validation stops at the first invalid symbol (`firstInvalid_text`), and `raise` writes the report
and the flags alone. -/
theorem decodeReportsTheFirstInvalidSymbol : Obligations.DecodeReportsTheFirstInvalidSymbol := by
  unfold Obligations.DecodeReportsTheFirstInvalidSymbol
  exact fun a s A i hA ht hi hbad hgood => exec_decode_invalid hA ht (firstInvalid_text hi hbad hgood)

theorem toNat_blen_commitPayload {r : List Byte} {s : State} (h : r.length ≤ s.cfg.nMax.toNat) :
    (finish (commitPayload r s)).blen.toNat = r.length := by
  rw [finish_blen, commitPayload_blen, BitVec.toNat_ofNat, Nat.mod_eq_of_lt (h.trans_lt s.cfg.nMax.isLt)]

/-- Settles O23: the run of stores in `commitPayload` writes the payload and no other byte. -/
theorem decodeWritesThePayloadAndNothingElse : Obligations.DecodeWritesThePayloadAndNothingElse := by
  unfold Obligations.DecodeWritesThePayloadAndNothingElse
  rintro a s A _ _ hA rfl ht hvalid rfl hl
  refine ⟨_, exec_decode_success hA ht ((firstInvalid_eq_none_iff A _).2 hvalid) hl, completedWell_finish _, ?_, ?_,
    toNat_blen_commitPayload hl, fun j hj => ?_, fun off hoff => ?_, ?_⟩
  · constructor <;> simp
  · constructor <;> simp
  · exact (readByte_commitPayload _ s _).trans (readByte_writeBytes_inside s bbufBase j _ hj)
  · exact (readByte_commitPayload _ s off).trans (readByte_writeBytes_outside s bbufBase off _ hoff)
  · simp

/-! ## The reference datapath (R168) -/

theorem length_minbytes_mono {v w : Nat} (h : v ≤ w) : (minbytes v).length ≤ (minbytes w).length :=
  (length_minbytes_le_iff v _).2 (h.trans_lt ((length_minbytes_le_iff w _).1 le_rfl))

/-- A byte sequence no longer than the minimal representation of its value is that representation. -/
theorem minbytes_val256_of_length_le {s : List Byte} (h : s.length ≤ (minbytes (val256 s)).length) :
    minbytes (val256 s) = s := by
  rw [minbytes_val256_eq_drop] at h ⊢
  exact (List.drop_suffix _ _).eq_of_length_le h

section
variable (v : Nat) {d : Nat} (hd : d < 58)
include hd

/-- One pass of R168 with `ACC` holding the minimal bytes of `v`. -/
theorem multiplyPass_minbytes_spec :
    (multiplyPass d (minbytes v).reverse).1.length = (minbytes v).length ∧
      (multiplyPass d (minbytes v).reverse).2 < 58 ∧
      val256 (multiplyPass d (minbytes v).reverse).1.reverse +
        (multiplyPass d (minbytes v).reverse).2 * 256 ^ (minbytes v).length = v * 58 + d := by
  simpa [val256_minbytes] using multiplyPass_spec (minbytes v).reverse d hd

/-- A pass that ends without a carry leaves the minimal bytes of `58 v + d`: they are at least as many as those of
`v`, and `ACC` has no more. -/
theorem multiplyPass_minbytes_of_carry_zero (hc : (multiplyPass d (minbytes v).reverse).2 = 0) :
    (multiplyPass d (minbytes v).reverse).1 = (minbytes (v * 58 + d)).reverse := by
  obtain ⟨hlen, -, hval⟩ := multiplyPass_minbytes_spec v hd
  rw [hc, Nat.zero_mul, Nat.add_zero] at hval
  have hmono : (minbytes v).length ≤ (minbytes (v * 58 + d)).length := length_minbytes_mono (by omega)
  rw [← List.reverse_eq_iff, ← hval, minbytes_val256_of_length_le]
  rwa [hval, List.length_reverse, hlen]

/-- A pass that ends with a carry leaves the minimal bytes of `58 v + d` once the carry is their top byte. -/
theorem multiplyPass_minbytes_append_carry (hc : (multiplyPass d (minbytes v).reverse).2 ≠ 0) :
    (multiplyPass d (minbytes v).reverse).1 ++ [BitVec.ofNat 8 (multiplyPass d (minbytes v).reverse).2] =
      (minbytes (v * 58 + d)).reverse := by
  obtain ⟨hlen, hcarry, hval⟩ := multiplyPass_minbytes_spec v hd
  generalize multiplyPass d (minbytes v).reverse = p at *
  have hbyte : (BitVec.ofNat 8 p.2).toNat = p.2 := by rw [BitVec.toNat_ofNat, Nat.mod_eq_of_lt (by omega)]
  have hvalue : val256 (BitVec.ofNat 8 p.2 :: p.1.reverse) = v * 58 + d := by
    rw [val256, hbyte, List.length_reverse, hlen, Nat.add_comm, hval]
  have hhead : BitVec.ofNat 8 p.2 ≠ 0#8 := fun h0 => hc (hbyte.symm.trans (congrArg BitVec.toNat h0))
  have hmin := minbytes_val256 (BitVec.ofNat 8 p.2 :: p.1.reverse) fun _ => hhead
  rw [← hvalue, hmin, List.reverse_cons, List.reverse_reverse]

end

theorem val58_le_val58_append (pre ds : List Nat) : val58 pre ≤ val58 (pre ++ ds) := by
  induction ds using List.reverseRecOn with
  | nil => rw [List.append_nil]
  | append_singleton ds x ih =>
    rw [← List.append_assoc, val58_append_singleton]
    omega

/-- The bytes of `v` as R168 holds them in `ACC`, or none where they are more than `N_MAX`. -/
def bytesWithin (nMax v : Nat) : Option (List Byte) :=
  if nMax < (minbytes v).length then none else some (minbytes v).reverse

/-- The invariant of R168: with the digits `pre` processed, `ACC` holds the minimal bytes of their value. -/
theorem multiplyLoop_eq_bytesWithin (nMax : Nat) (pre ds : List Nat) (hds : ∀ d ∈ ds, d < 58)
    (hfit : (minbytes (val58 pre)).length ≤ nMax) :
    multiplyLoop nMax (minbytes (val58 pre)).reverse ds = bytesWithin nMax (val58 (pre ++ ds)) := by
  induction ds generalizing pre with
  | nil => rw [multiplyLoop, List.append_nil, bytesWithin, if_neg hfit.not_gt]
  | cons d ds ih =>
    obtain ⟨hd, hds⟩ := List.forall_mem_cons.1 hds
    have ih' := ih (pre ++ [d]) hds
    have hmono := length_minbytes_mono (val58_le_val58_append (pre ++ [d]) ds)
    rw [List.append_assoc, List.singleton_append, val58_append_singleton] at ih' hmono
    have hlen := (multiplyPass_minbytes_spec (val58 pre) hd).1
    rw [multiplyLoop, List.length_reverse]
    split
    · next hc =>
      have hpass := multiplyPass_minbytes_of_carry_zero (val58 pre) hd hc
      have hkeep : (minbytes (val58 pre * 58 + d)).length = (minbytes (val58 pre)).length := by
        rw [← hlen, hpass, List.length_reverse]
      rw [hpass, ih' (by omega)]
    · next hc =>
      have hpass := multiplyPass_minbytes_append_carry (val58 pre) hd hc
      have hgrow : (minbytes (val58 pre * 58 + d)).length = (minbytes (val58 pre)).length + 1 := by
        rw [← hlen, ← List.length_reverse, ← hpass, List.length_append, List.length_singleton]
      split
      · rw [bytesWithin, if_pos (by omega)]
      · rw [hpass, ih' (by omega)]

/-- The loop of R168 over the symbols of a valid text after its leading zero-digit ones. -/
theorem multiplyLoop_text {A : Alphabet} (h : A.wf) (nMax : Nat) {x : List Byte} (hv : firstInvalid A x = none) :
    multiplyLoop nMax [] ((x.drop (lead x (symbolOf A 0))).map (fun b => (invOf A b).toNat)) =
      bytesWithin nMax (textValue A x) := by
  rw [← textValue_drop_lead h]
  refine multiplyLoop_eq_bytesWithin nMax [] _ (fun d hd => ?_) (Nat.zero_le nMax)
  obtain ⟨b, hb, rfl⟩ := List.mem_map.1 hd
  obtain ⟨e, -, he⟩ := h.exists_digit ((firstInvalid_eq_none_iff A x).1 hv b (List.mem_of_mem_drop hb))
  exact he ▸ e.isLt

/-- Settles O57: the loop holds the bytes of `V` where they fit (`multiplyLoop_text`), and the leading zeros are counted
after it. -/
theorem decodeDatapathComputesTheDecoding : Obligations.DecodeDatapathComputesTheDecoding := by
  unfold Obligations.DecodeDatapathComputesTheDecoding
  intro A nMax x h
  rw [decodeDatapath]
  cases hv : firstInvalid A x with
  | some p => rfl
  | none =>
    simp only [multiplyLoop_text h nMax hv, bytesWithin, length_decText]
    by_cases hk : nMax < (minbytes (textValue A x)).length
    · rw [if_pos hk, if_pos (by omega)]
    · rw [if_neg hk]
      simp only [List.length_reverse, List.reverse_reverse, decText_eq]

end Sys2Proof.Machine
end

/-! # The engine: issue, completion, `NOP` and `SRST` (spec/43_control.md R180 to R186) -/

section
namespace Sys2Proof.Machine

/-! ## What a step of the engine is (R182, R220) -/

theorem complete_of_dec {s : State} {i : Instr} (h : dec s.lcmd = .instr i) : complete s = exec i s := by
  simp only [complete, h]

/-- A `Complete` while idle is no step of the engine. -/
theorem step_complete_idle {s : State} (hb : s.busy = false) (hn : nextEvent s = .complete) :
    step s = .next (takeEvent s) := by
  simp [step, hn, perform, hb]

/-- With nothing pending there is no event to take out. -/
theorem takeEvent_of_nil {s : State} (h : s.pending = []) : takeEvent s = s := by
  cases s
  cases h
  rfl

/-- Settles O5: the engine's event is the completion (`step_complete`), and the latched word selects the command
(`complete_of_dec`). -/
theorem stepRunsTheDecodedCommand : Obligations.StepRunsTheDecodedCommand := by
  unfold Obligations.StepRunsTheDecodedCommand
  intro s i hb hpending hdec _
  rw [step_complete hb (nextEvent_engine hpending), complete_of_dec (s := takeEvent s) hdec]
  rfl

/-- Settles O8: in both cases the engine's event comes next, and it is no step while idle (`step_complete_idle`). -/
theorem idleEngineDoesNothing : Obligations.IdleEngineDoesNothing := by
  unfold Obligations.IdleEngineDoesNothing
  refine fun s hb => ⟨fun hp => ?_, fun rest hp => ?_⟩
  · rw [step_complete_idle hb (nextEvent_engine (.inl hp)), takeEvent_of_nil hp]
  · rw [step_complete_idle hb (nextEvent_engine (.inr (by simp [hp]))), takeEvent, hp, List.tail_cons]

/-! ## Issue (R181) -/

theorem hostWrite32_busy {s : State} (hb : s.busy = true) (off : Nat) (v : Word) : hostWrite32 off v s = s := by
  unfold hostWrite32
  split
  · rfl
  · exact if_pos hb

/-- A step on a pending write to `CMD` while idle is the issue of its word. -/
theorem step_issue {s : State} {w : Word} {rest : List Event} (hb : s.busy = false)
    (hp : s.pending = .access (.write32 0x08 w) :: rest) : step s = .next (issue w { s with pending := rest }) :=
  step_write32_idle .cmd hb hp

/-- Settles O7: the write to `CMD` is `issue` while idle (`step_issue`) and no change while busy (`hostWrite32_busy`). -/
theorem issueLatchesTheWordAndClearsTheReport : Obligations.IssueLatchesTheWordAndClearsTheReport := by
  unfold Obligations.IssueLatchesTheWordAndClearsTheReport
  refine fun s w rest hp => ⟨fun hb => step_issue hb hp, fun hb => ?_⟩
  rw [step_write32 (by decide) hp, hostWrite32_busy (s := { s with pending := rest }) hb]

/-! ## `NOP` (R184) -/

/-- Settles O11: the body of `NOP` is empty, so only the common tail (`finish`) runs. -/
theorem nopSetsDoneAndChangesNothingElse : Obligations.NopSetsDoneAndChangesNothingElse := fun _ => rfl

/-- Settles O12: the first step is the issue (`step_issue`), the second the completion (O5) of `NOP` (O11), whose word is
0 (O4). -/
theorem nopIssuedClearsTheErrorReport : Obligations.NopIssuedClearsTheErrorReport := by
  unfold Obligations.NopIssuedClearsTheErrorReport
  intro s rest hb hp
  obtain ⟨hnop, -⟩ := writtenOutWordsDecode
  have hcomplete := stepRunsTheDecodedCommand (issue 0x00000000#32 { s with pending := .complete :: rest }) .nop
    rfl (.inr rfl) hnop rfl
  rw [run_succ 1 (step_issue hb hp), run_succ 0 (hcomplete.trans (nopSetsDoneAndChangesNothingElse _)), run_zero]
  rfl

/-! ## `SRST` (R186) -/

theorem exec_srst (s : State) : exec .srst s = .next (clearRegisters s) := rfl

/-- Settles O13: each register after `clearRegisters`; the bytes of the buffers by `readByte_congr`. -/
theorem srstClearsRegistersAndKeepsBuffers : Obligations.SrstClearsRegistersAndKeepsBuffers := by
  unfold Obligations.SrstClearsRegistersAndKeepsBuffers
  intro s
  refine ⟨clearRegisters s, exec_srst s, ?_⟩
  have hbytes := readByte_congr (clearRegisters_mem s) (clearRegisters_ramEpoch s)
  simp [hbytes]

/-! ## Every command completes (R182, R26, R35) -/

/-- `t` keeps what no command but `SRST` writes: the latched word, `ALEN`, the parameters, the free values of the
buffers, the pending events and the replies. -/
structure SameControl (s t : State) : Prop where
  lcmd : t.lcmd = s.lcmd
  alen : t.alen = s.alen
  cfg : t.cfg = s.cfg
  ramEpoch : t.ramEpoch = s.ramEpoch
  pending : t.pending = s.pending
  replies : t.replies = s.replies

theorem SameButReport.sameControl {s t : State} (h : SameButReport s t) : SameControl s t := { h with }

/-- What a success writes is an output of its command, and none of these is one (R50). -/
theorem Success.sameControl {i : Instr} {s t : State} (h : Success i s t) : SameControl s t := by
  cases h with
  | _ => constructor <;> simp

/-- Every success ends in the common tail. -/
theorem Success.completedWell {i : Instr} {s t : State} (h : Success i s t) : CompletedWell t := by
  cases h with
  | _ => exact completedWell_finish _

/-- Every command but `SRST` completes with `DONE = 1`, whether it raised an error or not. -/
theorem exec_completes {i : Instr} (h : i ≠ .srst) (s : State) :
    ∃ t, exec i s = .next t ∧ t.busy = false ∧ t.done = true ∧ SameControl s t := by
  obtain ⟨t, ht, hcases⟩ := exec_cases i s
  refine ⟨t, ht, ?_⟩
  rcases hcases with ⟨e, b, p, rfl, -, -⟩ | ⟨hi, -⟩ | hs
  · exact ⟨raise_busy e b p s, raise_done e b p s, (sameButReport_raise e b p s).sameControl⟩
  · exact absurd hi h
  · exact ⟨hs.completedWell.busy, hs.completedWell.done, hs.sameControl⟩

/-- Settles O9: `SRST` clears the registers (`exec_srst`), and every other command ends in the tail of an error or of a
success (`exec_completes`). -/
theorem everyCommandCompletes : Obligations.EveryCommandCompletes := by
  unfold Obligations.EveryCommandCompletes
  intro i s
  by_cases hi : i = .srst
  · subst hi
    exact ⟨clearRegisters s, exec_srst s, by simp⟩
  · obtain ⟨t, ht, hbusy, hdone, hsame⟩ := exec_completes hi s
    exact ⟨t, ht, hbusy, fun _ => ⟨hdone, hsame.lcmd⟩, fun h => absurd h hi, hsame.cfg, hsame.ramEpoch,
      hsame.pending, hsame.replies, by rw [if_neg hi, hsame.alen]⟩

end Sys2Proof.Machine
end

/-! # The errors of the commands (spec/60_exceptions.md R191 to R201) -/

section
namespace Sys2Proof.Machine

/-! ## What a failing command leaves (R200, R201) -/

/-- The codes tell `AlphabetError` from the other errors (R191). -/
theorem codeOf_eq_one_iff {e : CmdError} : codeOf e = 1#8 ↔ e = .alphabetError := by
  cases e <;> decide

/-- Every error but `AlphabetError` leaves the custom slot alone. -/
theorem sameCustom_raise {e : CmdError} (he : e ≠ .alphabetError) (b : Byte) (p : Word) (s : State) :
    SameCustom s (raise e b p s) :=
  ⟨raise_avalid e he b p s, raise_csym e he b p s, raise_cinv e he b p s⟩

/-- A command that leaves `ERR = 1` raised one of six errors: neither `SRST` nor a success leaves it. -/
theorem eq_raise_of_exec_err {i : Instr} {s t : State} (ht : exec i s = .next t) (herr : t.err = true) :
    ∃ e b p, t = raise e b p s ∧ (e = .alphabetError → i = .ldalpha) ∧
      codeOf e ∈ [1#8, 2#8, 6#8, 7#8, 8#8, 9#8] := by
  obtain ⟨t', ht', hcases⟩ := exec_cases i s
  obtain rfl : t = t' := by simpa [ht] using ht'
  rcases hcases with hraise | ⟨-, rfl⟩ | hs
  · exact hraise
  · exact absurd herr (by simp)
  · exact absurd herr (by simp [hs.completedWell.err])

/-- Settles O26: the command raised an error (`eq_raise_of_exec_err`), and code 1 is `AlphabetError`'s alone
(`codeOf_eq_one_iff`). -/
theorem failingCommandChangesOnlyTheReport : Obligations.FailingCommandChangesOnlyTheReport := by
  unfold Obligations.FailingCommandChangesOnlyTheReport
  intro i s t ht herr
  obtain ⟨e, b, p, rfl, hldalpha, hcode⟩ := eq_raise_of_exec_err ht herr
  simp only [raise_errcode, ne_eq, codeOf_eq_one_iff]
  refine ⟨raise_busy e b p s, raise_done e b p s, hcode, sameButReport_raise e b p s, fun he => ?_, fun he => ?_⟩
  · exact ⟨sameCustom_raise he b p s, raise_draws e he b p s⟩
  · exact ⟨hldalpha he, he ▸ raise_alphabetError_avalid b p s⟩

/-! ## `IllegalCommand` (R195) -/

theorem complete_of_dec_illegal {s : State} {r : IllegalReason} (h : dec s.lcmd = .illegal r) :
    complete s = .next (raise .illegalCommand 0 0 s) := by
  simp only [complete, h]

/-- Settles O6: the engine's event is the completion (`step_complete`), an illegal word's raises `IllegalCommand`
(`complete_of_dec_illegal`), and `raise` writes the report and the flags alone. -/
theorem illegalWordCompletesWithIllegalCommand : Obligations.IllegalWordCompletesWithIllegalCommand := by
  unfold Obligations.IllegalWordCompletesWithIllegalCommand
  intro s r hb hpending hdec
  rw [step_complete hb (nextEvent_engine hpending), complete_of_dec_illegal (s := takeEvent s) hdec]
  rfl

/-! ## `SYMBOLOF` and `DigitRange` (R126, R199) -/

theorem exec_symbolof_digit {a : AlphaSel} {d : Byte} {s : State} {A : Alphabet} (hA : selectAlphabet a s = some A)
    (hd : d.toNat < 58) : exec (.symbolof a d) s = .next (finish (setRes (symbolOf A ⟨d.toNat, hd⟩) s)) := by
  simp [exec, execSymbolof, hA, hd]

theorem exec_symbolof_digitRange {a : AlphaSel} {d : Byte} {s : State} {A : Alphabet}
    (hA : selectAlphabet a s = some A) (hd : 58 ≤ d.toNat) :
    exec (.symbolof a d) s = .next (raise .digitRange d 0 s) := by
  simp [exec, execSymbolof, hA, hd.not_gt]

/-- Settles O16: a digit's symbol goes to `RES` (`exec_symbolof_digit`), and any other operand raises `DigitRange`
(`exec_symbolof_digitRange`). -/
theorem symbolofReadsTheSymbolTableOrRaisesDigitRange :
    Obligations.SymbolofReadsTheSymbolTableOrRaisesDigitRange := by
  unfold Obligations.SymbolofReadsTheSymbolTableOrRaisesDigitRange
  exact fun a d s A hA => ⟨exec_symbolof_digit hA, exec_symbolof_digitRange hA⟩

end Sys2Proof.Machine
end

/-! # Reset and hazards (spec/70_reset_and_hazards.md R230 to R240) -/

section
namespace Sys2Proof.Machine

/-! ## Hardware reset (R230, R232) -/

/-- Hardware reset is taken in every state, busy or not. -/
theorem step_hardReset {s : State} (hn : nextEvent s = .hardReset) :
    step s = .next (hardReset (takeEvent s)) := by
  simp [step, hn, perform]

/-- Settles O34: the registers by the lemmas of `hardReset`; the engine it leaves is idle, so a `Complete` does nothing
(`step_complete_idle`). -/
theorem hardwareResetAbandonsTheCommand : Obligations.HardwareResetAbandonsTheCommand := by
  unfold Obligations.HardwareResetAbandonsTheCommand
  intro s rest hp
  have hn : nextEvent s = .hardReset := by simp [nextEvent, hp]
  refine ⟨hardReset (takeEvent s), step_hardReset hn, by simp [hp], rfl, rfl, rfl, rfl, rfl, rfl, rfl, rfl, rfl, rfl,
    rfl, rfl, rfl, rfl, fun more hmore => ?_⟩
  have hpending : (hardReset (takeEvent s)).pending = .complete :: more := by simp [hp, hmore]
  rw [step_complete_idle rfl (nextEvent_engine (.inr (by rw [hpending]; rfl))), takeEvent, hpending, List.tail_cons]

/-! ## Host writes while busy (R237) -/

theorem hostWrite8_busy {s : State} (hb : s.busy = true) (off : Nat) (v : Byte) : hostWrite8 off v s = s := by
  rw [hostWrite8, if_pos hb, ite_self]

/-- Settles O27, by cases on the write: `hostWrite32_busy`, `hostWrite8_busy`. -/
theorem writesWhileBusyAreIgnored : Obligations.WritesWhileBusyAreIgnored := by
  unfold Obligations.WritesWhileBusyAreIgnored
  intro s a rest hb hwrite hwf hp
  have hw : a.off < WINDOW := of_decide_eq_true hwf
  cases a with
  | read32 off => cases hwrite
  | read8 off => cases hwrite
  | write32 off v => rw [step_write32 hw hp, hostWrite32_busy (s := { s with pending := rest }) hb]
  | write8 off v => rw [step_write8 hw hp, hostWrite8_busy (s := { s with pending := rest }) hb]

/-! ## Host reads while busy (R238) -/

/-- A value at an offset is that of the register there, as a word. -/
theorem exists_readReg_of_idleRegisterValue {s : State} {off v : Nat} (h : idleRegisterValue s off = some v) :
    ∃ r, regOffset r = off ∧ readReg r s = BitVec.ofNat 32 v := by
  obtain ⟨r, hr⟩ := regAt_of_idleRegisterValue h
  obtain rfl := (regAt_eq_some_iff off r).1 hr
  obtain rfl : (readReg r s).toNat = v := by simpa [idleRegisterValue_regOffset] using h
  exact ⟨r, rfl, by rw [BitVec.ofNat_toNat, BitVec.setWidth_eq]⟩

theorem definedWhileBusy_of_mem {r : Reg} (h : regOffset r ∈ [0x00, 0x04, 0x08, 0x0C]) :
    definedWhileBusy r = true := by
  revert h
  cases r <;> decide

/-- A register whose value is defined while busy reads true, busy or not. -/
theorem hostRead32_defined {r : Reg} (hr : definedWhileBusy r = true) (s : State) :
    hostRead32 (regOffset r) s = reply (.word (readReg r s)) s := by
  simp [hostRead32, regAt_regOffset, hr]

/-- The seven other registers. -/
theorem exists_reg_undefinedWhileBusy :
    ∀ off ∈ [0x10, 0x14, 0x18, 0x1C, 0x20, 0x24, 0x28], ∃ r, regOffset r = off ∧ definedWhileBusy r = false := by
  simp only [List.forall_mem_cons]
  exact ⟨⟨.errcode, rfl, rfl⟩, ⟨.errbyte, rfl, rfl⟩, ⟨.errpos, rfl, rfl⟩, ⟨.blen, rfl, rfl⟩, ⟨.tlen, rfl, rfl⟩,
    ⟨.alen, rfl, rfl⟩, ⟨.res, rfl, rfl⟩, nofun⟩

theorem hostRead32_undefined {r : Reg} {s : State} (hb : s.busy = true) (hr : definedWhileBusy r = false) :
    hostRead32 (regOffset r) s = countDraw (reply (.word (Config.anyWord s.draws)) s) := by
  simp [hostRead32, regAt_regOffset, hb, hr]

theorem hostRead8_busy {s : State} {off : Nat} (hb : s.busy = true) (h : isBufferByte s.cfg off = true) :
    hostRead8 off s = countDraw (reply (.byte (Config.anyByte s.draws)) s) := by
  simp [hostRead8, hb, h]

/-- In a legal status with `BUSY = 1`, `STATUS` shows `BUSY` and perhaps `AVALID` (R33). -/
theorem idleRegisterValue_status_busy {s : State} (h : StatusLegal s) (hb : s.busy = true) :
    idleRegisterValue s 0x0C = some 0x1 ∨ idleRegisterValue s 0x0C = some 0x9 := by
  obtain ⟨hdone, herr⟩ := h.of_busy hb
  cases hv : s.avalid <;> simp [idleRegisterValue, hb, hdone, herr, hv]

/-- Settles O28, by the target of the read: a register that is defined while busy (`hostRead32_defined`) or not
(`hostRead32_undefined`), a buffer byte (`hostRead8_busy`), or none (O29). -/
theorem readsWhileBusyAreTrueOrUnspecified : Obligations.ReadsWhileBusyAreTrueOrUnspecified := by
  unfold Obligations.ReadsWhileBusyAreTrueOrUnspecified
  intro s off rest hb hw
  obtain ⟨hnoReg, hnoByte⟩ := invalidAccessesAreInert s off rest hw
  refine ⟨fun v hp hoff hv => ?_, fun hp hoff => ?_, fun hp hbuf => ?_, fun hp hreg => (hnoReg hreg).1 hp,
    fun hp hbuf => ?_, fun hlegal hoff => hoff ▸ idleRegisterValue_status_busy hlegal hb⟩
  · obtain ⟨r, rfl, hr⟩ := exists_readReg_of_idleRegisterValue hv
    rw [step_read32 hw hp, hostRead32_defined (definedWhileBusy_of_mem hoff), readReg_pending, hr]
    rfl
  · obtain ⟨r, rfl, hr⟩ := exists_reg_undefinedWhileBusy off hoff
    refine ⟨Config.anyWord s.draws, ?_⟩
    rw [step_read32 hw hp, hostRead32_undefined (s := { s with pending := rest }) hb hr]
    rfl
  · refine ⟨Config.anyByte s.draws, ?_⟩
    rw [step_read8 hw hp, hostRead8_busy (s := { s with pending := rest }) hb hbuf]
    rfl
  · exact (hnoByte ((isBufferByte_iff _ _).not.1 (by simp [hbuf]))).1 hp

/-! ## Progress (R240) -/

/-- With nothing pending only the engine can move. -/
theorem nextEvent_eq_headD (s : State) : nextEvent s = s.pending.headD .complete := by
  unfold nextEvent
  cases s.pending <;> rfl

/-- The accesses in front of the engine's turn or of a hardware reset. -/
theorem exists_accesses_append (es : List Event) :
    ∃ (as : List HostAccess) (rest : List Event), es = as.map Event.access ++ rest ∧
      ∀ a, rest.headD .complete ≠ .access a := by
  induction es with
  | nil => exact ⟨[], [], rfl, nofun⟩
  | cons e es ih =>
    cases e with
    | access a =>
      obtain ⟨as, rest, rfl, hrest⟩ := ih
      exact ⟨a :: as, rest, rfl, hrest⟩
    | complete => exact ⟨[], .complete :: es, rfl, nofun⟩
    | hardReset => exact ⟨[], .hardReset :: es, rfl, nofun⟩

/-- Whatever word is latched, a busy engine's `Complete` leaves it idle, and so does hardware reset. -/
theorem exists_idle_step_of_not_access {s : State} (hb : s.busy = true) (h : ∀ a, nextEvent s ≠ .access a) :
    ∃ t, (nextEvent s = .complete ∨ nextEvent s = .hardReset) ∧ step s = .next t ∧ t.busy = false ∧
      (nextEvent s = .complete → complete (takeEvent s) = .next t) := by
  cases hn : nextEvent s with
  | access a => exact absurd hn (h a)
  | complete =>
    obtain ⟨t, ht, -⟩ := complete_cases (takeEvent s)
    obtain ⟨-, hidle, -⟩ := complete_frame ht
    exact ⟨t, .inl rfl, (step_complete hb hn).trans ht, hidle, fun _ => ht⟩
  | hardReset => exact ⟨hardReset (takeEvent s), .inr rfl, step_hardReset hn, rfl, nofun⟩

/-- Settles O40: the accesses in front leave the engine busy with its command (O39); then the event that is no access
comes, and leaves it idle (`exists_idle_step_of_not_access`). -/
theorem busyEngineCompletes : Obligations.BusyEngineCompletes := by
  unfold Obligations.BusyEngineCompletes
  intro s hin hb
  obtain ⟨as, rest, hp, hrest⟩ := exists_accesses_append s.pending
  have hwf : ∀ a ∈ as, a.wf = true := fun a ha =>
    hin a (hp ▸ List.mem_append_left rest (List.mem_map_of_mem ha))
  obtain ⟨n, rs, hrun⟩ := commandSeesTheInputsOfItsIssue as s rest hb hwf hp
  obtain ⟨t, hnext, hstep, hidle, hcomplete⟩ := exists_idle_step_of_not_access
    (s := { s with pending := rest, draws := s.draws + n, replies := rs ++ s.replies }) hb
    fun a => by rw [nextEvent_eq_headD]; exact hrest a
  exact ⟨as.length, _, t, by simp [hp], hrun, hb, rfl, hnext, hstep, hidle, hcomplete⟩

end Sys2Proof.Machine
end
